-- ==== Sys2Proof/Word.lean ====
section
/-! DEFINITION. The Word of the Intcode core: a mathematical integer with a range (00_scope.md R6, R7; 10_state.md R24).

The width `W` is an open parameter with `W >= 64`, so a Word is an `Int`: a memory cell, a raw parameter value, a channel value
or a stored ALU result. The range is checked where the spec checks it, and no operation wraps (R7). That every stored
integer is a Word is `isWord`, which the invariant of the machine keeps. -/

namespace Sys2Proof

/-- `WMIN = -2^(W-1)` (R6). -/
def wordMin (width : Nat) : Int := -((2 ^ (width - 1) : Nat) : Int)

/-- `WMAX = 2^(W-1) - 1` (R6). -/
def wordMax (width : Nat) : Int := ((2 ^ (width - 1) : Nat) : Int) - 1

/-- `WMIN <= v <= WMAX`: the integer `v` is a Word of `width` bits (R7). -/
def isWord (width : Nat) (v : Int) : Bool := decide (wordMin width ≤ v) && decide (v ≤ wordMax width)

end Sys2Proof
end

