-- ==== Sys2Proof/Config.lean ====
section
/-! DEFINITION. The open parameters of the core (00_scope.md R6) and the one free value of the model.

A `Config` is plain data that stands in `State` and that no step writes, so a statement about every state is a statement
about every value of the parameters (log 1, log 5, log 6). -/

namespace Sys2Proof

/-- `jump_target_eval`: when the target of a jump is resolved (R6, 43_control.md R173, 92_eei_decisions.md D8). -/
inductive JumpTargetEval where
  /-- The target is resolved only when the jump is taken. -/
  | lazy
  /-- The target is resolved before the condition is tested. -/
  | eager
  deriving DecidableEq, Repr

/-- The answer of an output channel to `Put(v)` (44_channels.md R191). -/
inductive PutAnswer where
  | ok
  | ioError
  deriving DecidableEq, Repr, Inhabited

/-- The parameters that R6 marks OPEN and that belong to one core. -/
structure Config where
  /-- `W - 64`: the width is `W = 64 + extraBits`, so `W >= 64` holds by construction (D2). -/
  extraBits : Nat
  /-- `jump_target_eval` (D8). -/
  jumpTargetEval : JumpTargetEval
  /-- `N_MAX`, the largest memory the host can supply, or `none` where no bound is given (D14). -/
  maxWords : Option Nat
  deriving DecidableEq, Repr

/-- `W` (R6). -/
def Config.width (c : Config) : Nat := 64 + c.extraBits

/-- The host can supply a memory of `n` Words (R6, `N_MAX`). -/
def Config.canSupply (c : Config) (n : Nat) : Bool :=
  match c.maxWords with
  | none => true
  | some bound => decide (n ≤ bound)

/-- The defaults of R6: `W = 64` and `jump_target_eval = lazy`; no bound `N_MAX` is given (log 5, DESIGN CHOICE). -/
def Config.default : Config := { extraBits := 0, jumpTargetEval := .lazy, maxWords := none }

/-- FREE VALUE (log 11). The answer an Interactive output gives to its `n`-th `Put` when `State` lists no answer of the
host for it: `Ok` or `IOError`, as the host decides (44_channels.md R197, R201). Nothing constrains it. -/
opaque Config.freePutAnswer : Nat → PutAnswer

end Sys2Proof
end

