-- ==== Sys2Proof/Syntax.lean ====
section
/-! DEFINITION. The instructions of the core as syntax: nine kinds, two addressing modes (00_scope.md R2, R10). -/

namespace Sys2Proof

/-- An addressing mode (R10, 30_encoding.md R73). -/
inductive Mode where
  /-- Digit 0: the raw value is an address. -/
  | position
  /-- Digit 1: the raw value is used literally. -/
  | immediate
  deriving DecidableEq, Repr

/-- A parameter `p = (raw, mode)` (R10). The raw value is the whole parameter word (30_encoding.md R83). -/
structure Param where
  raw : Int
  mode : Mode
  deriving DecidableEq, Repr

/-- The nine instruction kinds, by the source's names (30_encoding.md R74). -/
inductive Kind where
  | add | multiply | input | output | jumpIfTrue | jumpIfFalse | lessThan | equals | halt
  deriving DecidableEq, Repr

/-- A decoded instruction: its kind and its parameters in order, a destination's mode digit included (R74, R78, R84). -/
inductive Instr where
  /-- ADD, opcode 1: `a`, `b`, `dst`. -/
  | add (a b dst : Param)
  /-- MUL, opcode 2: `a`, `b`, `dst`. -/
  | multiply (a b dst : Param)
  /-- IN, opcode 3: `dst`. -/
  | input (dst : Param)
  /-- OUT, opcode 4: `src`. -/
  | output (src : Param)
  /-- JT, opcode 5: `cond`, `target`. -/
  | jumpIfTrue (cond target : Param)
  /-- JF, opcode 6: `cond`, `target`. -/
  | jumpIfFalse (cond target : Param)
  /-- LT, opcode 7: `a`, `b`, `dst`. -/
  | lessThan (a b dst : Param)
  /-- EQ, opcode 8: `a`, `b`, `dst`. -/
  | equals (a b dst : Param)
  /-- HALT, opcode 99. -/
  | halt
  deriving DecidableEq, Repr

/-- Why a decode fails (30_encoding.md R76 to R79): the sub-kinds of `InvalidProgram`. -/
inductive DecodeError where
  | invalidOpcode
  | invalidAddressingMode
  | unexpectedEnd
  deriving DecidableEq, Repr

/-- The kind of an instruction. -/
def Instr.kind : Instr → Kind
  | .add _ _ _ => .add
  | .multiply _ _ _ => .multiply
  | .input _ => .input
  | .output _ => .output
  | .jumpIfTrue _ _ => .jumpIfTrue
  | .jumpIfFalse _ _ => .jumpIfFalse
  | .lessThan _ _ _ => .lessThan
  | .equals _ _ _ => .equals
  | .halt => .halt

/-- The parameters of an instruction, in parameter order (R70). -/
def Instr.params : Instr → List Param
  | .add a b dst => [a, b, dst]
  | .multiply a b dst => [a, b, dst]
  | .input dst => [dst]
  | .output src => [src]
  | .jumpIfTrue cond target => [cond, target]
  | .jumpIfFalse cond target => [cond, target]
  | .lessThan a b dst => [a, b, dst]
  | .equals a b dst => [a, b, dst]
  | .halt => []

end Sys2Proof
end

