-- ==== Sys2Proof/Machine/State.lean ====
section
/-! DEFINITION. The state of the core as plain data (10_state.md R20 to R33), the reasons a step can stop, and the state
after reset. -/

namespace Sys2Proof.Machine

/-- The memory `M[0..N-1]` (R23, 20_memory.md R50). `cells` lists the Words that are not 0, by strictly rising address: an
address below `size` that is not listed holds 0 (log 2). The unit is the Word: the architecture has no bytes (R51). -/
structure Memory where
  /-- `N`, the length in Words, fixed for the whole invocation (R23). -/
  size : Nat
  cells : List (Nat × Int)
  deriving DecidableEq, Repr

/-- Why an invocation halted normally (R26). -/
inductive HaltReason where
  /-- A HALT instruction was executed (43_control.md R172). -/
  | haltInstr
  /-- `pc >= N`, the implicit halt (40_engine.md R101). -/
  | endOfMemory
  deriving DecidableEq, Repr

/-- The error kind an instruction can raise, with the payload the spec records beside `pc` (60_exceptions.md R230). -/
inductive Cause where
  /-- The decoder failed on the instruction word `w` (codes 1, 2 and 3). -/
  | invalidProgram (sub : DecodeError) (w : Int)
  /-- The offending address or jump target (code 4). -/
  | outOfBounds (a : Int)
  /-- The input channel answered `Exhausted` (code 5). -/
  | inputExhausted
  /-- A channel answered `IOError` (code 6). -/
  | ioError
  /-- The exact result outside `WMIN..WMAX` (code 7). -/
  | overflow (r : Int)
  deriving DecidableEq, Repr

/-- The fault record (R27): the index of the faulting instruction word and the cause. -/
structure FaultRecord where
  pc : Nat
  cause : Cause
  deriving DecidableEq, Repr

/-- The engine's FSM state (R26). -/
inductive Status where
  /-- Code 0: the engine will fetch at `pc` at its next step. -/
  | running
  /-- Code 1: an IN has issued `Take()` and waits for the answer; `d` is its destination parameter (R29). -/
  | awaitInput (d : Param)
  /-- Codes 2 and 3: normal termination. -/
  | halted (reason : HaltReason)
  /-- Code 4: the invocation failed. -/
  | faulted (record : FaultRecord)
  deriving DecidableEq, Repr

/-- The decoded-instruction latch (R28): the decoded instruction and its length. -/
structure Latched where
  instr : Instr
  length : Nat
  deriving DecidableEq, Repr

/-- What a human-facing console can answer to one `Take()` (44_channels.md R195). -/
inductive ConsoleEvent where
  /-- One line of text, without its line end. -/
  | line (text : List Char)
  /-- End of console input. -/
  | endOfInput
  /-- Any other console failure (R190). -/
  | failure
  deriving DecidableEq, Repr

/-- The backing state of the input channel attached to the core (R30, 44_channels.md R193, R195, R199). -/
inductive InputChannel where
  /-- Scripted: the queue `Q` of values not yet consumed. -/
  | scripted (queue : List Int)
  /-- Scripted, backed by text: the text not yet consumed. -/
  | scriptedText (text : List Char)
  /-- Interactive: how many prompts were written, and the console's events that are not yet read, oldest first. With
  no event listed the console gives no answer (log 10). -/
  | interactive (prompts : Nat) (pending : List ConsoleEvent)
  deriving DecidableEq, Repr

/-- The backing state of the output channel attached to the core (R30, 44_channels.md R196, R197). -/
inductive OutputChannel where
  /-- Collecting: the sequence `S`, oldest first. -/
  | collecting (values : List Int)
  /-- Interactive: the lines written, oldest first, how many `Put` transactions there were, and the host's next answers.
  When no answer is listed the answer is a free value (log 11). -/
  | interactive (lines : List (List Char)) (puts : Nat) (answers : List PutAnswer)
  deriving DecidableEq, Repr

/-- The state of one core and of the two channels attached to it. -/
structure State where
  /-- The open parameters; no step writes them (00_scope.md R6). -/
  cfg : Config
  /-- The program counter, a Nat (R21). -/
  pc : Nat
  /-- The memory (R23). -/
  mem : Memory
  /-- The FSM state, with the fault record and the pending input inside (R26, R27, R29). -/
  status : Status
  /-- The decoded-instruction latch, empty between instructions (R28). -/
  latch : Option Latched
  /-- The input channel's backing state (R30). -/
  input : InputChannel
  /-- The output channel's backing state (R30). -/
  output : OutputChannel
  deriving DecidableEq, Repr

/-- Why `step` stops. -/
inductive Fault where
  /-- Raised by `step` alone, of a state that is `Halted(_)` or `Faulted(_)`: "the engine takes no further step in the
  invocation" (40_engine.md R109). SAFE: the hardware does nothing there either (log 7). -/
  | invocationEnded
  deriving DecidableEq, Repr

/-- Why an instruction is refused. -/
inductive Refusal where
  /-- Raised by an arm of `exec` whose instruction has no meaning yet. No arm is: the constructor is the host's. SAFE. -/
  | notModelled (mnemonic : String)
  deriving DecidableEq, Repr

/-- The answer of a step. -/
abbrev Answered := Host.Outcome State Fault Refusal

/-- The machine right after reset (R33, 70_reset_and_hazards.md R260): `pc` 0, `Running`, no fault record, empty latch, no
pending input. The parts the caller supplies are the defaults of R6, the empty image, a Scripted input with an empty queue
and an empty Collecting output (log 3, DESIGN CHOICE). -/
def State.reset : State :=
  { cfg := Config.default
    pc := 0
    mem := { size := 0, cells := [] }
    status := .running
    latch := none
    input := .scripted []
    output := .collecting [] }

end Sys2Proof.Machine
end

