-- ==== Sys2Proof/Machine/Flags.lean ====
section
/-! DEFINITION. What this core has instead of flags. It has none (10_state.md R25): the comparisons answer the Word 1 or 0,
and a result outside the Word range is the fault `Overflow` (41_alu.md R130, R133 to R135). -/

namespace Sys2Proof.Machine

/-- `1 if a < b else 0`, the signed comparison of LT (R133). -/
def lessThanWord (a b : Int) : Int := if a < b then 1 else 0

/-- `1 if a = b else 0`, the comparison of EQ (R134). -/
def equalsWord (a b : Int) : Int := if a = b then 1 else 0

/-- The range check of an exact result (R130; decision D3, log 14): outside `WMIN..WMAX` it is `Overflow(r)`. -/
def checkRange (width : Nat) (r : Int) : Except Cause Int :=
  if isWord width r then .ok r else .error (.overflow r)

/-- The condition JT tests (43_control.md R170). -/
def isNonzero (c : Int) : Bool := decide (c ≠ 0)

/-- The condition JF tests (R171): only the exact value 0. -/
def isZero (c : Int) : Bool := decide (c = 0)

end Sys2Proof.Machine
end

