-- ==== Sys2Proof/WellFormed.lean ====
section
/-! DEFINITION. Which instructions can stand in a memory of `width`-bit Words: every raw value is a Word (30_encoding.md R83).
The kinds, the modes and the parameter counts are well formed by their types. -/

namespace Sys2Proof

/-- The raw value is a Word: it can be any Word, negative included (R83). -/
def Param.wf (width : Nat) (p : Param) : Bool := isWord width p.raw

/-- Every parameter of the instruction is well formed. -/
def Instr.wf (width : Nat) (i : Instr) : Bool := i.params.all (Param.wf width)

end Sys2Proof
end

