-- ==== Sys2Proof/Decode.lean ====
section
/-! DEFINITION. The decoder (30_encoding.md R82) and, after it, the encoder (R71, R87).

The decoder reads a VIEW: the list of the Words of memory from the program counter upward, as many of the next four as
memory holds. No instruction is longer than four Words (R72), so `N - pc - 1 < k` holds of memory exactly when fewer than
`k` Words follow the first one in the view. -/

namespace Sys2Proof

/-- `digit(w, k) = (w div 10^k) mod 10` (00_scope.md R8). -/
def digit (w k : Nat) : Nat := w / 10 ^ k % 10

/-- The parameter count `k` of a kind, "determined solely by this two-digit opcode" (R70, R74). -/
def Kind.paramCount : Kind → Nat
  | .add => 3
  | .multiply => 3
  | .input => 1
  | .output => 1
  | .jumpIfTrue => 2
  | .jumpIfFalse => 2
  | .lessThan => 3
  | .equals => 3
  | .halt => 0

/-- The opcode map (R74). The numerals 3 to 8 are decision D4 of the spec (log 13, PRESUMED). -/
def opMap : List (Nat × Kind) :=
  [(1, .add), (2, .multiply), (3, .input), (4, .output), (5, .jumpIfTrue), (6, .jumpIfFalse), (7, .lessThan),
    (8, .equals), (99, .halt)]

/-- The kind an opcode names, `none` outside the map (R76). -/
def kindOfOpcode (op : Nat) : Option Kind := opMap.lookup op

/-- The kind an instruction word selects: `w mod 100` in the map; a negative word selects none (R76, R79). -/
def kindOfWord (w : Int) : Option Kind :=
  if w < 0 then none else kindOfOpcode (w.toNat % 100)

/-- The mode a digit selects: 0 Position, 1 Immediate, any other digit is illegal (R73, R78). -/
def modeOfDigit : Nat → Option Mode
  | 0 => some .position
  | 1 => some .immediate
  | _ => none

/-- The modes read from `n` successive digits of `w`, the lowest at place `k` (R71). -/
def modesFrom (w : Nat) : Nat → Nat → Option (List Mode)
  | _, 0 => some []
  | k, n + 1 =>
    match modeOfDigit (digit w k), modesFrom w (k + 1) n with
    | some m, some ms => some (m :: ms)
    | _, _ => none

/-- The `k` mode digits of the instruction word, the hundreds digit first; every digit above them must be 0 (R71, R78, R79). -/
def modesOf (w k : Nat) : Option (List Mode) :=
  match modesFrom w 2 k with
  | none => none
  | some ms => if w / 10 ^ (2 + k) = 0 then some ms else none

/-- The instruction of a kind with its parameters; `none` only for a list of the wrong length. -/
def Kind.build : Kind → List Param → Option Instr
  | .add, [a, b, dst] => some (.add a b dst)
  | .multiply, [a, b, dst] => some (.multiply a b dst)
  | .input, [dst] => some (.input dst)
  | .output, [src] => some (.output src)
  | .jumpIfTrue, [cond, target] => some (.jumpIfTrue cond target)
  | .jumpIfFalse, [cond, target] => some (.jumpIfFalse cond target)
  | .lessThan, [a, b, dst] => some (.lessThan a b dst)
  | .equals, [a, b, dst] => some (.equals a b dst)
  | .halt, [] => some .halt
  | _, _ => none

/-- `Decode(pc)` (R82), on the view of memory from `pc`: the instruction and its length `1 + k`, or the first decode error
in the order of R80. The engine never gives it an empty view (R82 "called only with 0 <= pc < N"); on one it answers
`unexpectedEnd` (log 25). -/
def decode (view : List Int) : Except DecodeError (Instr × Nat) :=
  match view with
  | [] => .error .unexpectedEnd
  | w :: rest =>
    match kindOfWord w with
    | none => .error .invalidOpcode
    | some kind =>
      match modesOf w.toNat kind.paramCount with
      | none => .error .invalidAddressingMode
      | some modes =>
        if rest.length < kind.paramCount then .error .unexpectedEnd
        else
          match kind.build (List.zipWith Param.mk rest modes) with
          | none => .error .unexpectedEnd
          | some i => .ok (i, 1 + kind.paramCount)

/-! ## The encoder -/

/-- The opcode of a kind (R74). -/
def Kind.opcode : Kind → Nat
  | .add => 1
  | .multiply => 2
  | .input => 3
  | .output => 4
  | .jumpIfTrue => 5
  | .jumpIfFalse => 6
  | .lessThan => 7
  | .equals => 8
  | .halt => 99

/-- The mnemonic's mode digit (R73). -/
def Mode.digit : Mode → Nat
  | .position => 0
  | .immediate => 1

/-- The mode digits of the parameters, the first at the place of value `scale`. -/
def modeDigits : Nat → List Param → Nat
  | _, [] => 0
  | scale, p :: ps => scale * p.mode.digit + modeDigits (10 * scale) ps

/-- The instruction word `OP + 100*M1 + 1000*M2 + 10000*M3` (R71, R87). -/
def Instr.word (i : Instr) : Int := ((i.kind.opcode + modeDigits 100 i.params : Nat) : Int)

/-- The Words of an instruction: the instruction word, then one parameter word per parameter (R70, R87). -/
def encode (i : Instr) : List Int := i.word :: i.params.map Param.raw

/-- The instruction length `1 + k` in Words (R86). -/
def Instr.length (i : Instr) : Nat := 1 + i.kind.paramCount

/-- The 45 legal instruction words (R75), written out as the rule's table lists them. -/
def legalWords : List (Kind × List Int) :=
  [(.add, [1, 101, 1001, 1101, 10001, 10101, 11001, 11101]),
   (.multiply, [2, 102, 1002, 1102, 10002, 10102, 11002, 11102]),
   (.input, [3, 103]),
   (.output, [4, 104]),
   (.jumpIfTrue, [5, 105, 1005, 1105]),
   (.jumpIfFalse, [6, 106, 1006, 1106]),
   (.lessThan, [7, 107, 1007, 1107, 10007, 10107, 11007, 11107]),
   (.equals, [8, 108, 1008, 1108, 10008, 10108, 11008, 11108]),
   (.halt, [99])]

/-! ## An instruction given as the bits of its Words (log 4)

The opcode table counts no bits: its rows are decimal. A number is read as the instruction's four Words of 64 bits (the
default width), the first in bits 63..0, each in two's complement. -/

/-- The 64-bit two's complement value of the low 64 bits of `n`. -/
def signed64 (n : Nat) : Int :=
  if n % 2 ^ 64 < 2 ^ 63 then ((n % 2 ^ 64 : Nat) : Int) else ((n % 2 ^ 64 : Nat) : Int) - ((2 ^ 64 : Nat) : Int)

/-- The four Words whose bits are the low `nbits` bits of `w`, every bit above being 0. -/
def tableWords (nbits w : Nat) : List Int :=
  let bits := w % 2 ^ nbits
  [signed64 bits, signed64 (bits / 2 ^ 64), signed64 (bits / 2 ^ 128), signed64 (bits / 2 ^ 192)]

/-- The instruction the decoder reads from the bits `w`; `none` where it refuses. -/
def decodeTableWord (nbits w : Nat) : Option Instr :=
  match decode (tableWords nbits w) with
  | .ok (i, _) => some i
  | .error _ => none

end Sys2Proof
end

