-- ==== Sys2Proof/Machine/Memory.lean ====
section
/-! DEFINITION. The memory of Words: reading and writing one cell, its canonical form, and images (20_memory.md R50 to R53,
log 2). -/

namespace Sys2Proof.Machine

/-- What an address below `N` that the list does not name holds. Every cell of an image has a value (10_state.md R33); a
cell whose value is 0 is simply not listed. -/
def Memory.unlisted : Int := 0

/-- The Word at address `a` in a list of cells. -/
def readCell : List (Nat × Int) → Nat → Int
  | [], _ => Memory.unlisted
  | (b, v) :: rest, a => if a = b then v else readCell rest a

/-- The cells after the Word `v` is written at address `a`: the list stays sorted, and `unlisted` is never listed. -/
def writeCell : List (Nat × Int) → Nat → Int → List (Nat × Int)
  | [], a, v => if v = Memory.unlisted then [] else [(a, v)]
  | (b, u) :: rest, a, v =>
    if a < b then
      if v = Memory.unlisted then (b, u) :: rest else (a, v) :: (b, u) :: rest
    else if a = b then
      if v = Memory.unlisted then rest else (a, v) :: rest
    else (b, u) :: writeCell rest a v

/-- The canonical form of a list of cells: addresses strictly rising, all in `lo..hi-1`, and no cell `unlisted`. -/
def cellsWf : Nat → Nat → List (Nat × Int) → Bool
  | _, _, [] => true
  | lo, hi, (a, v) :: rest => decide (lo ≤ a) && decide (a < hi) && decide (v ≠ Memory.unlisted) && cellsWf (a + 1) hi rest

/-- The memory is in canonical form. -/
def Memory.wf (m : Memory) : Bool := cellsWf 0 m.size m.cells

/-- Every cell holds a Word of `width` bits (10_state.md R23). -/
def Memory.holdsWords (width : Nat) (m : Memory) : Bool := m.cells.all fun c => isWord width c.2

/-- `M[a]` (00_scope.md R9). -/
def Memory.peek (m : Memory) (a : Nat) : Int := readCell m.cells a

/-- `M[a] <- v` (R9). -/
def Memory.poke (m : Memory) (a : Nat) (v : Int) : Memory := { m with cells := writeCell m.cells a v }

/-- `0 <= a < N`: the bounds check of R52 and R53. -/
def Memory.inBounds (m : Memory) (a : Int) : Bool := decide (0 ≤ a) && decide (a < (m.size : Int))

/-- The Words from index `pc` upward, at most `n` of them, as many as memory holds. -/
def Memory.view (m : Memory) (pc n : Nat) : List Int :=
  (List.range (min n (m.size - pc))).map fun i => m.peek (pc + i)

/-- The cells of an image whose first Word stands at `a`. -/
def imageCells : Nat → List Int → List (Nat × Int)
  | _, [] => []
  | a, v :: vs => if v = Memory.unlisted then imageCells (a + 1) vs else (a, v) :: imageCells (a + 1) vs

/-- The memory that holds an image: `N` is its length, and Word `i` of it is `M[i]` (R33, 70_reset_and_hazards.md R260). -/
def Memory.ofImage (image : List Int) : Memory := { size := image.length, cells := imageCells 0 image }

/-- The whole contents `M[0..N-1]`, as the caller reads them (10_state.md R32). -/
def Memory.contents (m : Memory) : List Int := (List.range m.size).map m.peek

end Sys2Proof.Machine
end

