-- ==== Sys2Proof/Machine/Ops.lean ====
section
/-! DEFINITION. The named operations every meaning uses: the access primitives, taking a fault, the updates of the program
counter, the halts, and the fetch (20_memory.md R52, R53; 40_engine.md R101 to R108). -/

namespace Sys2Proof.Machine

/-- `MemRead(a, 1)` (R52): the Word at `a`, or `OutOfBounds(a)` unless `0 <= a < N`. -/
def memRead (m : Memory) (a : Int) : Except Cause Int :=
  if m.inBounds a then .ok (m.peek a.toNat) else .error (.outOfBounds a)

/-- `MemWrite(a, 1, v)` (R53): the memory with `v` at `a`, or `OutOfBounds(a)` unless `0 <= a < N`. -/
def memWrite (m : Memory) (a : Int) (v : Int) : Except Cause Memory :=
  if m.inBounds a then .ok (m.poke a.toNat v) else .error (.outOfBounds a)

/-- `raise K(info)` (R108), the one way a fault is taken: status `Faulted(K, info)` with the index of the faulting
instruction word recorded; memory, `pc` and the channels stay. The instruction is over, so the latch is discarded
(10_state.md R28, log 12). There is no handler and no return (60_exceptions.md R234, R235). -/
def State.raise (c : Cause) (s : State) : State :=
  { s with status := .faulted { pc := s.pc, cause := c }, latch := none }

/-- The state an instruction ends in: what its rule gives, or the fault it raised, taken at `s`. -/
def State.orRaise (s : State) (r : Except Cause State) : State :=
  match r with
  | .ok t => t
  | .error c => s.raise c

/-- `pc <- pc + len`, the last action of an instruction that does not set the PC itself (R104). -/
def State.advance (len : Nat) (s : State) : State := { s with pc := s.pc + len, latch := none }

/-- `pc <- t`, the last action of a taken jump (R104). -/
def State.jumpTo (t : Nat) (s : State) : State := { s with pc := t, latch := none }

/-- Normal termination; `pc` stays (R101, 43_control.md R172). -/
def State.haltWith (reason : HaltReason) (s : State) : State := { s with status := .halted reason, latch := none }

/-- The memory after an instruction's store. -/
def State.withMem (m : Memory) (s : State) : State := { s with mem := m }

/-- The longest instruction, in Words (30_encoding.md R72). -/
def longestInstr : Nat := 4

/-- The decoder applied to memory at `pc` (R82, R102): it reads the memory as it is now (20_memory.md R62). -/
def fetch (s : State) : Except DecodeError (Instr × Nat) := decode (s.mem.view s.pc longestInstr)

end Sys2Proof.Machine
end

