-- ==== Sys2Proof/Machine/Operands.lean ====
section
/-! DEFINITION. Parameter resolution: every operand form of the core (30_encoding.md R84; 40_engine.md R105 to R107). -/

namespace Sys2Proof.Machine

/-- `ReadVal(p)` (R105): the raw value in Immediate mode, the Word at that address in Position mode. -/
def readVal (s : State) (p : Param) : Except Cause Int :=
  match p.mode with
  | .immediate => .ok p.raw
  | .position => memRead s.mem p.raw

/-- `WriteAddr(p)` (R106): the raw value as an address, in any mode; `OutOfBounds(raw)` unless `0 <= raw < N`. For IN this
is decision D7 of the spec (log 16). -/
def writeAddr (s : State) (p : Param) : Except Cause Nat :=
  if s.mem.inBounds p.raw then .ok p.raw.toNat else .error (.outOfBounds p.raw)

/-- The check of a resolved jump target (R107, R173): a negative one is `OutOfBounds(t)` (decision D9, log 17). A target at
or above `N` is no fault. -/
def checkTarget (t : Int) : Except Cause Nat :=
  if t < 0 then .error (.outOfBounds t) else .ok t.toNat

/-- `JumpTarget(p)` (R107). -/
def jumpTarget (s : State) (p : Param) : Except Cause Nat := do
  let t ← readVal s p
  checkTarget t

end Sys2Proof.Machine
end

