-- ==== Sys2Proof/Machine/Alu.lean ====
section
/-! DEFINITION. The ALU instructions ADD, MUL, LT and EQ (41_alu.md R130 to R135). -/

namespace Sys2Proof.Machine

/-- `ALU(combine, p1, p2, p3)` (R130): both sources, the exact combination, the range check, the destination, the write,
`pc <- pc + 4`. The order of the checks is decision D12 of the spec (log 18). -/
def alu (combine : Int → Int → Int) (p1 p2 p3 : Param) (s : State) : Except Cause State := do
  let a ← readVal s p1
  let b ← readVal s p2
  let r ← checkRange s.cfg.width (combine a b)
  let d ← writeAddr s p3
  let m ← memWrite s.mem d r
  return (s.withMem m).advance 4

/-- ADD (R131). -/
def execAdd (p1 p2 p3 : Param) (s : State) : Answered := .next (s.orRaise (alu (fun a b => a + b) p1 p2 p3 s))

/-- MUL (R132). -/
def execMultiply (p1 p2 p3 : Param) (s : State) : Answered := .next (s.orRaise (alu (fun a b => a * b) p1 p2 p3 s))

/-- LT (R133). -/
def execLessThan (p1 p2 p3 : Param) (s : State) : Answered := .next (s.orRaise (alu lessThanWord p1 p2 p3 s))

/-- EQ (R134). -/
def execEquals (p1 p2 p3 : Param) (s : State) : Answered := .next (s.orRaise (alu equalsWord p1 p2 p3 s))

end Sys2Proof.Machine
end

