-- ==== Sys2Proof/Machine/Control.lean ====
section
/-! DEFINITION. The control-transfer instructions JT, JF and HALT (43_control.md R170 to R174). -/

namespace Sys2Proof.Machine

/-- `JUMP(taken_test, p1, p2)` (R173), under the parameter `jump_target_eval` of the state. -/
def jump (takenTest : Int → Bool) (p1 p2 : Param) (s : State) : Except Cause State := do
  let c ← readVal s p1
  match s.cfg.jumpTargetEval with
  | .eager =>
    let t ← readVal s p2
    if takenTest c then
      let target ← checkTarget t
      return s.jumpTo target
    else
      return s.advance 3
  | .lazy =>
    if takenTest c then
      let target ← jumpTarget s p2
      return s.jumpTo target
    else
      return s.advance 3

/-- JT (R170): jumps when the condition is not 0. -/
def execJumpIfTrue (p1 p2 : Param) (s : State) : Answered := .next (s.orRaise (jump isNonzero p1 p2 s))

/-- JF (R171): jumps when the condition is 0. -/
def execJumpIfFalse (p1 p2 : Param) (s : State) : Answered := .next (s.orRaise (jump isZero p1 p2 s))

/-- HALT (R172): `pc` is left at the index of the 99 (decision D15, log 19). -/
def execHalt (s : State) : Answered := .next (s.haltWith .haltInstr)

end Sys2Proof.Machine
end

