-- ==== Sys2Proof/Machine/Text.lean ====
section
/-! DEFINITION. Integers as text: the integer grammar of the loader and of the text-backed channels, and the decimal form
of a Word (70_reset_and_hazards.md R261, 44_channels.md R195, R197, R199). -/

namespace Sys2Proof.Machine

/-- A whitespace character: the characters Unicode calls white space, newline included (R261 "any whitespace character",
log 21, PRESUMED). -/
def isSpace (c : Char) : Bool :=
  let n := c.toNat
  decide (9 ≤ n ∧ n ≤ 13) || decide (n = 32) || decide (n = 133) || decide (n = 160) || decide (n = 5760) ||
    decide (8192 ≤ n ∧ n ≤ 8202) || decide (n = 8232) || decide (n = 8233) || decide (n = 8239) || decide (n = 8287) ||
    decide (n = 12288)

/-- The text without its surrounding whitespace (R261). -/
def trim (cs : List Char) : List Char := ((cs.dropWhile isSpace).reverse.dropWhile isSpace).reverse

/-- The value of a decimal digit "0" to "9" (R261). -/
def digitValue (c : Char) : Option Nat :=
  if 48 ≤ c.toNat ∧ c.toNat ≤ 57 then some (c.toNat - 48) else none

/-- The number whose higher digits are `acc` and whose further digits are the characters. -/
def parseDigitsFrom : Nat → List Char → Option Nat
  | acc, [] => some acc
  | acc, c :: cs =>
    match digitValue c with
    | none => none
    | some d => parseDigitsFrom (10 * acc + d) cs

/-- `digit+` (R261): at least one digit, leading zeros accepted. -/
def parseDigits : List Char → Option Nat
  | [] => none
  | c :: cs => parseDigitsFrom 0 (c :: cs)

/-- `"-"? digit+` as an integer, before its range is checked (R261). -/
def parseSigned : List Char → Option Int
  | [] => none
  | c :: cs =>
    if c = '-' then (parseDigits cs).map fun n => -(n : Int)
    else (parseDigits (c :: cs)).map fun n => (n : Int)

/-- `integer := "-"? digit+`, its value in `WMIN..WMAX` (R261, 92_eei_decisions.md D16). -/
def parseInteger (width : Nat) (cs : List Char) : Option Int :=
  match parseSigned cs with
  | none => none
  | some v => if isWord width v then some v else none

/-- The pieces of a text between the separators: one more than there are separators. -/
def splitAtChar (sep : Char) : List Char → List (List Char)
  | [] => [[]]
  | c :: cs =>
    if c = sep then [] :: splitAtChar sep cs
    else
      match splitAtChar sep cs with
      | [] => [[c]]
      | piece :: pieces => (c :: piece) :: pieces

/-- All the values, or `none` if one is missing. -/
def allSome {α : Type} : List (Option α) → Option (List α)
  | [] => some []
  | none :: _ => none
  | some v :: rest => (allSome rest).map (v :: ·)

/-- The first line of a text, without its line end, and the text after it; `none` when no text is left. A last line
without a newline is a line (44_channels.md R199, log 22). -/
def takeLine : List Char → Option (List Char × List Char)
  | [] => none
  | c :: cs =>
    if c = '\n' then some ([], cs)
    else
      match takeLine cs with
      | none => some ([c], [])
      | some (line, rest) => some (c :: line, rest)

/-- The character of a digit below 10. -/
def digitChar (d : Nat) : Char := Char.ofNat (48 + d)

/-- The decimal digits of `n` put before `acc`, with enough fuel. -/
def digitsOnto : Nat → Nat → List Char → List Char
  | 0, _, acc => acc
  | fuel + 1, n, acc =>
    if n < 10 then digitChar n :: acc else digitsOnto fuel (n / 10) (digitChar (n % 10) :: acc)

/-- The decimal form of a natural number. -/
def decimalNat (n : Nat) : List Char := digitsOnto (n.log2 + 1) n []

/-- The decimal form of a Word (R197, 92_eei_decisions.md D18). -/
def decimal (v : Int) : List Char :=
  if v < 0 then '-' :: decimalNat v.natAbs else decimalNat v.natAbs

/-- The text form of a Scripted channel: "one integer per line, newline-terminated" (R199). -/
def linesOfWords : List Int → List Char
  | [] => []
  | v :: vs => decimal v ++ '\n' :: linesOfWords vs

end Sys2Proof.Machine
end

