-- ==== Sys2Proof/Machine/Channels.lean ====
section
/-! DEFINITION. The two channel ports (44_channels.md R190, R191) and their implementations: Scripted and Interactive input
(R193, R195, R199), Collecting and Interactive output (R196, R197). -/

namespace Sys2Proof.Machine

/-- The answer of an input channel to `Take()` (R190). -/
inductive TakeAnswer where
  | value (v : Int)
  | exhausted
  | ioError
  deriving DecidableEq, Repr

/-- A line that parses as a Word answers `Value`, any other answers `IOError` (R195, R199). -/
def answerOfLine (width : Nat) (line : List Char) : TakeAnswer :=
  match parseInteger width line with
  | none => .ioError
  | some v => .value v

/-- The answer an event of the console gives (R195, 92_eei_decisions.md D17): the line is trimmed and parsed, end of input
is `Exhausted`. -/
def answerOfEvent (width : Nat) : ConsoleEvent → TakeAnswer
  | .line text => answerOfLine width (trim text)
  | .endOfInput => .exhausted
  | .failure => .ioError

/-- What issuing `Take()` does to the channel at once: an Interactive channel writes its prompt (R195). No value is
consumed before the answer (log 9). -/
def InputChannel.prompted : InputChannel → InputChannel
  | .scripted queue => .scripted queue
  | .scriptedText text => .scriptedText text
  | .interactive prompts pending => .interactive (prompts + 1) pending

/-- The answer to an outstanding `Take()`, with the channel after it; `none` when the channel gives no answer yet (R190,
R193, R195, R199). -/
def InputChannel.take (width : Nat) : InputChannel → Option (TakeAnswer × InputChannel)
  | .scripted [] => some (.exhausted, .scripted [])
  | .scripted (v :: queue) => some (.value v, .scripted queue)
  | .scriptedText text =>
    match takeLine text with
    | none => some (.exhausted, .scriptedText text)
    | some (line, rest) => some (answerOfLine width line, .scriptedText rest)
  | .interactive _ [] => none
  | .interactive prompts (event :: pending) => some (answerOfEvent width event, .interactive prompts pending)

/-- The answers to `n` transactions `Take()` in a row, up to the first that is not answered (R193, R195). -/
def InputChannel.answers (width : Nat) : Nat → InputChannel → List TakeAnswer
  | 0, _ => []
  | n + 1, ch =>
    match ch.take width with
    | none => []
    | some (answer, rest) => answer :: rest.answers width n

/-- The line an Interactive output writes: the Word's decimal form and a newline (R197). -/
def lineOfWord (v : Int) : List Char := decimal v ++ ['\n']

/-- The host's answer to the next `Put` on an Interactive output: the first listed one, or the free value (R197, R201,
log 11). -/
def nextPutAnswer (puts : Nat) : List PutAnswer → PutAnswer
  | [] => Config.freePutAnswer puts
  | answer :: _ => answer

/-- `Put(v)`: the answer and the channel after it (R191, R196, R197). A line whose `Put` answers `IOError` is not counted
as written (60_exceptions.md R233, log 11). -/
def OutputChannel.put (v : Int) : OutputChannel → PutAnswer × OutputChannel
  | .collecting values => (.ok, .collecting (values ++ [v]))
  | .interactive lines puts answers =>
    match nextPutAnswer puts answers with
    | .ok => (.ok, .interactive (lines ++ [lineOfWord v]) (puts + 1) answers.tail)
    | .ioError => (.ioError, .interactive lines (puts + 1) answers.tail)

/-- Every value an input channel lists is a Word (R190). Text is parsed when it is taken. -/
def InputChannel.holdsWords (width : Nat) : InputChannel → Bool
  | .scripted queue => queue.all (isWord width)
  | .scriptedText _ => true
  | .interactive _ _ => true

/-- Every value an output channel lists is a Word (R191). -/
def OutputChannel.holdsWords (width : Nat) : OutputChannel → Bool
  | .collecting values => values.all (isWord width)
  | .interactive _ _ _ => true

/-- The console gives one more event, after those not yet read; a Scripted channel has no console (R201). -/
def InputChannel.feed (event : ConsoleEvent) : InputChannel → InputChannel
  | .scripted queue => .scripted queue
  | .scriptedText text => .scriptedText text
  | .interactive prompts pending => .interactive prompts (pending ++ [event])

/-- What the environment can do to a core whose input is Interactive, at any moment: the console gives an event (R201). -/
def State.hostFeedsConsole (event : ConsoleEvent) (s : State) : State := { s with input := s.input.feed event }

end Sys2Proof.Machine
end

