-- ==== Sys2Proof/Machine/Io.lean ====
section
/-! DEFINITION. The I/O instructions IN and OUT (42_io.md R150 to R152). -/

namespace Sys2Proof.Machine

/-- IN, step 1 (R150): issue `Take()`; status `AwaitInput(p1)`. The latch keeps the instruction until it completes
(10_state.md R28, R29). -/
def execInput (p1 : Param) (s : State) : Answered :=
  .next { s with status := .awaitInput p1, input := s.input.prompted }

/-- IN with the answer `Value(v)` (R150), `s` being the state after the value was consumed: resolve the destination, write,
`pc <- pc + 2`, status `Running`. -/
def storeInput (d : Param) (v : Int) (s : State) : Except Cause State := do
  let a ← writeAddr s d
  let m ← memWrite s.mem a v
  return { (s.withMem m).advance 2 with status := .running }

/-- IN, step 2 (R150): taken when the channel answers. The channel keeps the consumption whatever follows. With no answer
the engine waits, and all state stays (44_channels.md R195, 60_exceptions.md R242, log 8). -/
def completeInput (d : Param) (s : State) : State :=
  match s.input.take s.cfg.width with
  | none => s
  | some (.value v, ch) => State.orRaise { s with input := ch } (storeInput d v { s with input := ch })
  | some (.exhausted, ch) => State.raise .inputExhausted { s with input := ch }
  | some (.ioError, ch) => State.raise .ioError { s with input := ch }

/-- OUT after its source is read (R151): one `Put(v)`; `IOError` is raised, else `pc <- pc + 2`. -/
def putValue (v : Int) (s : State) : State :=
  match s.output.put v with
  | (.ok, ch) => State.advance 2 { s with output := ch }
  | (.ioError, ch) => State.raise .ioError { s with output := ch }

/-- OUT (R151): the source is resolved before any `Put`. -/
def execOutput (p1 : Param) (s : State) : Answered :=
  .next (s.orRaise do
    let v ← readVal s p1
    return putValue v s)

end Sys2Proof.Machine
end

