-- ==== Sys2Proof/Machine/Dispatch.lean ====
section
/-! DEFINITION. The execute dispatch (40_engine.md R103): one arm per instruction. -/

namespace Sys2Proof.Machine

/-- The rule of the latched instruction's kind, run on the state. -/
def exec (i : Instr) (s : State) : Host.Outcome State Fault Refusal :=
  match i with
  | .add a b dst => Sys2Proof.Machine.execAdd a b dst s
  | .multiply a b dst => Sys2Proof.Machine.execMultiply a b dst s
  | .input dst => Sys2Proof.Machine.execInput dst s
  | .output src => Sys2Proof.Machine.execOutput src s
  | .jumpIfTrue cond target => Sys2Proof.Machine.execJumpIfTrue cond target s
  | .jumpIfFalse cond target => Sys2Proof.Machine.execJumpIfFalse cond target s
  | .lessThan a b dst => Sys2Proof.Machine.execLessThan a b dst s
  | .equals a b dst => Sys2Proof.Machine.execEquals a b dst s
  | .halt => Sys2Proof.Machine.execHalt s

end Sys2Proof.Machine
end

