-- ==== Sys2Proof/Machine/Engine.lean ====
section
/-! DEFINITION. The engine's FSM (40_engine.md R100 to R102, R109, R110): what one step does in each status. -/

namespace Sys2Proof.Machine

/-- The decoded instruction stands in the latch (R102, 10_state.md R28). -/
def State.latched (i : Instr) (len : Nat) (s : State) : State := { s with latch := some { instr := i, length := len } }

/-- One step in `Running`: the bounds test and implicit halt (R101), else fetch and decode; a decode failure `X` raises
`InvalidProgram(X, pc, M[pc])`, and a decoded instruction is latched and executed (R102, R103). -/
def stepRunning (s : State) : Answered :=
  if s.mem.size ≤ s.pc then .next (s.haltWith .endOfMemory)
  else
    match fetch s with
    | .error x => .next (s.raise (.invalidProgram x (s.mem.peek s.pc)))
    | .ok (i, len) => exec i (s.latched i len)

/-- One step of the engine (R100). In a terminal status there is none (R109, log 7). -/
def engineStep (s : State) : Answered :=
  match s.status with
  | .running => stepRunning s
  | .awaitInput d => .next (completeInput d s)
  | .halted _ => .fault .invocationEnded
  | .faulted _ => .fault .invocationEnded

/-- The four Words of an instruction stored from `pc` upward; memory is made long enough to hold them (log 4). -/
def Memory.withWords : List Int → Nat → Memory → Memory
  | [], _, m => m
  | w :: ws, a, m => Memory.withWords ws (a + 1) ({ m with size := max m.size (a + 1) }.poke a w)

/-- The state whose next step fetches and runs the instruction whose bits are `w`: the Words stand at `pc`, and the engine
is `Running` (log 4). -/
def State.fetchingWord (s : State) (nbits w : Nat) : State :=
  { s with mem := s.mem.withWords (tableWords nbits w) s.pc, status := .running, latch := none }

end Sys2Proof.Machine
end

