-- ==== Sys2Proof/Machine/Step.lean ====
section
/-! DEFINITION. The step function. -/

namespace Sys2Proof.Machine

/-- One step of the core (40_engine.md R100, R110). -/
def step (s : State) : Host.Outcome State Fault Refusal := engineStep s

/-- The state with the instruction whose bits are `w` stored where `step` fetches next (log 4). -/
def State.withFetchWord (s : State) (nbits w : Nat) : State := s.fetchingWord nbits w

end Sys2Proof.Machine
end

