-- ==== Sys2Proof/Machine/Asm.lean ====
section
/-! DEFINITION. The assembly syntax and the pseudo-instructions of the spec (30_encoding.md R87, R88; decisions D24, D25,
log 26). -/

namespace Sys2Proof.Machine

/-- A pseudo-instruction with its operands resolved (R88). A destination `[d]` is the address `d`. -/
inductive Pseudo where
  | jmp (t : Param)
  | mov (s : Param) (d : Int)
  | neg (s : Param) (d : Int)
  | nop
  deriving DecidableEq, Repr

/-- The expansion of a pseudo-instruction (R88). -/
def Pseudo.expand : Pseudo → Instr
  | .jmp t => .jumpIfTrue ⟨1, .immediate⟩ t
  | .mov s d => .add s ⟨0, .immediate⟩ ⟨d, .position⟩
  | .neg s d => .multiply s ⟨-1, .immediate⟩ ⟨d, .position⟩
  | .nop => .jumpIfFalse ⟨1, .immediate⟩ ⟨0, .immediate⟩

/-- A value in an operand: a number, or a label that stands for the index of the next Word (R87). -/
inductive AsmValue where
  | number (v : Int)
  | label (name : List Char)
  deriving DecidableEq, Repr

/-- An operand (R87): `#v` has mode digit 1, `[a]` has mode digit 0. -/
structure AsmOperand where
  mode : Mode
  value : AsmValue
  deriving DecidableEq, Repr

/-- A statement of an assembly program (R87, R88). -/
inductive AsmStatement where
  | instr (kind : Kind) (operands : List AsmOperand)
  | jmp (t : AsmOperand)
  | mov (s d : AsmOperand)
  | neg (s d : AsmOperand)
  | nop
  | data (values : List Int)
  deriving DecidableEq, Repr

/-- One line: the label it begins with, if any, and its statement, if any. -/
structure AsmLine where
  label : Option (List Char)
  statement : Option AsmStatement
  deriving DecidableEq, Repr

/-- How many Words a statement assembles to (R86, R88). -/
def AsmStatement.size : AsmStatement → Nat
  | .instr kind _ => 1 + kind.paramCount
  | .jmp _ => 3
  | .mov _ _ => 4
  | .neg _ _ => 4
  | .nop => 3
  | .data values => values.length

/-- How many Words a line assembles to. -/
def AsmLine.size (l : AsmLine) : Nat :=
  match l.statement with
  | none => 0
  | some st => st.size

/-- The labels of a program with the index of the next Word, the first line standing at index `a` (R87). -/
def labelTable : Nat → List AsmLine → List (List Char × Nat)
  | _, [] => []
  | a, l :: ls =>
    match l.label with
    | none => labelTable (a + l.size) ls
    | some name => (name, a) :: labelTable (a + l.size) ls

/-- The integer a value stands for. -/
def AsmValue.resolve (labels : List (List Char × Nat)) : AsmValue → Option Int
  | .number v => some v
  | .label name => (labels.lookup name).map fun a => (a : Int)

/-- The parameter an operand stands for. -/
def AsmOperand.resolve (labels : List (List Char × Nat)) (o : AsmOperand) : Option Param :=
  (o.value.resolve labels).map fun v => { raw := v, mode := o.mode }

/-- The address of a pseudo-instruction's destination, which is written `[d]` (R88). -/
def AsmOperand.resolveDst (labels : List (List Char × Nat)) (o : AsmOperand) : Option Int :=
  match o.mode with
  | .position => o.value.resolve labels
  | .immediate => none

/-- The Words of a statement (R87, R88); `none` for an unknown label or a wrong number of operands. -/
def AsmStatement.assemble (labels : List (List Char × Nat)) : AsmStatement → Option (List Int)
  | .instr kind operands => do
    let params ← allSome (operands.map (AsmOperand.resolve labels))
    let i ← kind.build params
    return encode i
  | .jmp t => do
    let p ← t.resolve labels
    return encode (Pseudo.jmp p).expand
  | .mov s d => do
    let p ← s.resolve labels
    let a ← d.resolveDst labels
    return encode (Pseudo.mov p a).expand
  | .neg s d => do
    let p ← s.resolve labels
    let a ← d.resolveDst labels
    return encode (Pseudo.neg p a).expand
  | .nop => some (encode Pseudo.nop.expand)
  | .data values => some values

/-- No name stands twice. -/
def distinctNames : List (List Char) → Bool
  | [] => true
  | name :: names => !names.contains name && distinctNames names

/-- The Words of a program; `none` where a statement does not assemble or a label is defined twice. -/
def assemble (ls : List AsmLine) : Option (List Int) :=
  let labels := labelTable 0 ls
  if distinctNames (labels.map Prod.fst) then
    (allSome ((ls.filterMap AsmLine.statement).map (AsmStatement.assemble labels))).map List.flatten
  else none

/-! ## The text form -/

/-- The kind a mnemonic names (30_encoding.md R74). -/
def kindOfMnemonic (m : List Char) : Option Kind :=
  [("ADD", Kind.add), ("MUL", .multiply), ("IN", .input), ("OUT", .output), ("JT", .jumpIfTrue), ("JF", .jumpIfFalse),
    ("LT", .lessThan), ("EQ", .equals), ("HALT", .halt)].lookup (String.ofList m)

/-- A letter "A" to "Z" or "a" to "z", or the underscore (log 26, the model's choice). -/
def isLetter (c : Char) : Bool :=
  decide (65 ≤ c.toNat ∧ c.toNat ≤ 90) || decide (97 ≤ c.toNat ∧ c.toNat ≤ 122) || decide (c = '_')

/-- A label's name: a letter, then letters and digits (log 26, the model's choice). -/
def isLabelName : List Char → Bool
  | [] => false
  | c :: cs => isLetter c && cs.all fun d => isLetter d || (digitValue d).isSome

/-- A value as text: a number or a label's name. R87 gives no grammar for a number; DESIGN CHOICE (log 26): it is spelled by the
integer grammar of R261 (no `+`, leading zeros allowed, a Word), with no blank before or after it. -/
def parseAsmValue (width : Nat) (cs : List Char) : Option AsmValue :=
  match parseInteger width cs with
  | some v => some (.number v)
  | none => if isLabelName cs then some (.label cs) else none

/-- An operand as text: `#v` or `[a]` (R87). DESIGN CHOICE (log 26): no blank stands after `#`, after `[` or before `]`. -/
def parseAsmOperand (width : Nat) : List Char → Option AsmOperand
  | '#' :: cs => (parseAsmValue width cs).map fun v => { mode := .immediate, value := v }
  | '[' :: cs =>
    match cs.reverse with
    | ']' :: inner => (parseAsmValue width inner.reverse).map fun v => { mode := .position, value := v }
    | _ => none
  | _ => none

/-- The comma-separated pieces of an operand field, blanks around each taken off; none for an empty field (log 26, the model's
choice; which characters are blanks is log 21). -/
def operandFields (cs : List Char) : List (List Char) :=
  if trim cs = [] then [] else (splitAtChar ',' cs).map trim

/-- A statement as text: a mnemonic, then its operands (R87, R88). DESIGN CHOICE (log 26): the mnemonic is in capitals and is
parted from its operands by a blank; a value of `DATA` is a number in the integer grammar of R261, and no label. -/
def parseAsmStatement (width : Nat) (cs : List Char) : Option AsmStatement :=
  let mnemonic := cs.takeWhile fun c => !isSpace c
  let fields := operandFields (cs.dropWhile fun c => !isSpace c)
  if mnemonic = "DATA".toList then (allSome (fields.map (parseInteger width))).map .data
  else
    match allSome (fields.map (parseAsmOperand width)) with
    | none => none
    | some operands =>
      match kindOfMnemonic mnemonic with
      | some kind => some (.instr kind operands)
      | none =>
        match String.ofList mnemonic, operands with
        | "JMP", [t] => some (.jmp t)
        | "MOV", [s, d] => some (.mov s d)
        | "NEG", [s, d] => some (.neg s d)
        | "NOP", [] => some .nop
        | _, _ => none

/-- A line as text: `name:` if it has a label, then its statement if it has one. DESIGN CHOICE (log 26): a line has one label and
one statement at most, so that two labels before one statement on the same line are refused (each may stand on a line of its
own); a blank may stand before the colon; there are no comments. -/
def parseAsmLine (width : Nat) (line : List Char) : Option AsmLine :=
  let text := trim line
  let head := text.takeWhile fun c => c ≠ ':'
  let tail := text.dropWhile fun c => c ≠ ':'
  match tail with
  | [] =>
    if text = [] then some { label := none, statement := none }
    else (parseAsmStatement width text).map fun st => { label := none, statement := some st }
  | _ :: body =>
    let name := trim head
    let rest := trim body
    if isLabelName name then
      if rest = [] then some { label := some name, statement := none }
      else (parseAsmStatement width rest).map fun st => { label := some name, statement := some st }
    else none

/-- The Words of an assembly text, one line per statement (log 26, the model's choice). -/
def assembleText (width : Nat) (text : List Char) : Option (List Int) := do
  let ls ← allSome ((splitAtChar '\n' text).map (parseAsmLine width))
  assemble ls

end Sys2Proof.Machine
end

