-- ==== Sys2Proof/Machine/Loader.lean ====
section
/-! DEFINITION. The loader `parse_program` and the program text it reads (70_reset_and_hazards.md R261, 30_encoding.md R89), and
the error kinds with their codes (60_exceptions.md R230). -/

namespace Sys2Proof.Machine

/-- The error kinds (R230): those `execute` returns, and the two that are raised outside it. -/
inductive ErrorKind where
  | invalidProgram (sub : DecodeError)
  | outOfBounds
  | inputExhausted
  | ioError
  | overflow
  /-- Raised by the loader, before execution. -/
  | parseError
  /-- Raised by the pipeline sequencer. -/
  | noOutput
  deriving DecidableEq, Repr

/-- The numeric code of an error kind (R230; decision D13, log 20). -/
def ErrorKind.code : ErrorKind → Nat
  | .invalidProgram .invalidOpcode => 1
  | .invalidProgram .invalidAddressingMode => 2
  | .invalidProgram .unexpectedEnd => 3
  | .outOfBounds => 4
  | .inputExhausted => 5
  | .ioError => 6
  | .overflow => 7
  | .parseError => 8
  | .noOutput => 9

/-- The kind of a fault's cause, without its payload (R230). -/
def Cause.kind : Cause → ErrorKind
  | .invalidProgram sub _ => .invalidProgram sub
  | .outOfBounds _ => .outOfBounds
  | .inputExhausted => .inputExhausted
  | .ioError => .ioError
  | .overflow _ => .overflow

/-- The tokens of a program text, trimmed (R261). -/
def tokensOf (text : List Char) : List (List Char) := (splitAtChar ',' text).map trim

/-- `parse_program(text)` (R261): the image, one Word per token in text order, or `ParseError` if any token fails. -/
def parseProgram (width : Nat) (text : List Char) : Except ErrorKind (List Int) :=
  match allSome ((tokensOf text).map (parseInteger width)) with
  | none => .error .parseError
  | some image => .ok image

/-- The program text of an image: decimal integers separated by commas (R89). -/
def programText : List Int → List Char
  | [] => []
  | [v] => decimal v
  | v :: w :: vs => decimal v ++ ',' :: programText (w :: vs)

end Sys2Proof.Machine
end

