-- ==== Sys2Proof/Machine/Invocation.lean ====
section
/-! DEFINITION. An invocation: reset, the run to a terminal state, and what the caller observes (40_engine.md R109, R112, R113;
70_reset_and_hazards.md R260, R262, R263; 10_state.md R32). -/

namespace Sys2Proof.Machine

/-- `Reset(image, in_ch, out_ch)` (R260), for a core with the given parameters. -/
def resetWith (cfg : Config) (image : List Int) (input : InputChannel) (output : OutputChannel) : State :=
  { cfg := cfg
    pc := 0
    mem := Memory.ofImage image
    status := .running
    latch := none
    input := input
    output := output }

/-- The boot sequence from program text (R262): parse, then reset with the channels. -/
def boot (cfg : Config) (text : List Char) (input : InputChannel) (output : OutputChannel) : Except ErrorKind State := do
  let image ← parseProgram cfg.width text
  return resetWith cfg image input output

/-- A new invocation with a new image, after a run left `s` (R263): the channels keep their state (44_channels.md R198). -/
def State.reinvoke (image : List Int) (s : State) : State := resetWith s.cfg image s.input s.output

/-- A new invocation on the memory the run left (R263). -/
def State.reinvokeInPlace (s : State) : State := { s with pc := 0, status := .running, latch := none }

/-- The status is terminal (R26): the run has ended (R113). -/
def Status.terminal : Status → Bool
  | .running => false
  | .awaitInput _ => false
  | .halted _ => true
  | .faulted _ => true

/-- The code of a status (R26; decision D27, log 20). -/
def Status.code : Status → Nat
  | .running => 0
  | .awaitInput _ => 1
  | .halted .haltInstr => 2
  | .halted .endOfMemory => 3
  | .faulted _ => 4

/-- What `execute` returns (R109): `Ok(())` for both halts, `Err(K)` for a fault, nothing while the run has not ended. -/
def Status.result : Status → Option (Except ErrorKind Unit)
  | .running => none
  | .awaitInput _ => none
  | .halted _ => some (.ok ())
  | .faulted record => some (.error record.cause.kind)

/-- The run from `s` under fuel: the terminal state it reaches, or `none` for "not ended" within the fuel (R111, log 23). -/
def runToEnd : Nat → State → Option State
  | 0, s => if s.status.terminal then some s else none
  | fuel + 1, s =>
    if s.status.terminal then some s
    else
      match step s with
      | .next t => runToEnd fuel t
      | .fault _ => none
      | .refused _ => none

/-- `execute(memory, input_channel, output_channel)` under fuel (R112). -/
def execute (fuel : Nat) (cfg : Config) (image : List Int) (input : InputChannel) (output : OutputChannel) : Option State :=
  runToEnd fuel (resetWith cfg image input output)

/-- What the caller observes at the end of an invocation (R32). -/
structure Observation where
  result : Except ErrorKind Unit
  memory : List Int
  input : InputChannel
  output : OutputChannel
  deriving DecidableEq, Repr

/-- The caller's view of a state whose run has ended (R32): `pc`, the payload of a fault and the latch are not in it. -/
def State.observation (s : State) : Option Observation :=
  match s.status.result with
  | none => none
  | some r => some { result := r, memory := s.mem.contents, input := s.input, output := s.output }

end Sys2Proof.Machine
end

