-- ==== Sys2Proof/Machine/Pipeline.lean ====
section
/-! DEFINITION. The optional pipeline block (45_pipeline.md R210 to R218): a sequencer that uses only `execute`. Every run is
under fuel, and "not ended" is an outcome of its own (log 23). -/

namespace Sys2Proof.Machine

/-- The lists got by putting `x` at each place of a list. -/
def insertions (x : Nat) : List Nat → List (List Nat)
  | [] => [[x]]
  | y :: ys => (x :: y :: ys) :: (insertions x ys).map (y :: ·)

/-- The orderings of `[0, ..., n-1]`: the finite collection of R210. Its order is unspecified (R211, log 24). -/
def orderings : Nat → List (List Nat)
  | 0 => [[]]
  | n + 1 => (orderings n).flatMap (insertions n)

/-- The outcome of one stage. -/
inductive StageOutcome where
  /-- The stage's final collected output (R213). -/
  | output (v : Int)
  /-- The stage failed, or halted with no output (R214, R215). -/
  | failed (k : ErrorKind)
  /-- The run did not end within the fuel. -/
  | notEnded
  deriving DecidableEq, Repr

/-- The sequence of a Collecting output; an Interactive one collects nothing. -/
def OutputChannel.collected : OutputChannel → List Int
  | .collecting values => values
  | .interactive _ _ _ => []

/-- The outcome of a stage from the state its run ended in (R213 to R215). -/
def stageOutcome (t : State) : StageOutcome :=
  match t.status.result with
  | none => .notEnded
  | some (.error k) => .failed k
  | some (.ok ()) =>
    match t.output.collected.getLast? with
    | none => .failed .noOutput
    | some v => .output v

/-- One stage (R212): a fresh copy of the program, a Scripted input `[phase, s]`, an empty Collecting output. -/
def runStage (fuel : Nat) (cfg : Config) (program : List Int) (phase : Nat) (s : Int) : StageOutcome :=
  match execute fuel cfg program (.scripted [(phase : Int), s]) (.collecting []) with
  | none => .notEnded
  | some t => stageOutcome t

/-- The outcome of one ordering (R212, R214, R215). -/
inductive OrderingOutcome where
  | score (s : Int)
  | failed (stage : Nat) (k : ErrorKind)
  | notEnded (stage : Nat)
  deriving DecidableEq, Repr

/-- The stages of an ordering from stage `i` on, in strict sequence (R212, R217). -/
def runStages (fuel : Nat) (cfg : Config) (program : List Int) : Nat → Int → List Nat → OrderingOutcome
  | _, s, [] => .score s
  | i, s, phase :: phases =>
    match runStage fuel cfg program phase s with
    | .output v => runStages fuel cfg program (i + 1) v phases
    | .failed k => .failed i k
    | .notEnded => .notEnded i

/-- `RunOrdering(P, phi)` (R212): the first stage's input is 0. -/
def runOrdering (fuel : Nat) (cfg : Config) (program : List Int) (phases : List Nat) : OrderingOutcome :=
  runStages fuel cfg program 0 0 phases

/-- The outcome of the search (R216). -/
inductive SearchOutcome where
  /-- The maximum score over the orderings that did not fail. -/
  | best (score : Int)
  /-- Every ordering failed. -/
  | allFailed
  /-- An ordering did not end within the fuel. -/
  | notEnded
  /-- The stage count 0 (R218, decision D23). -/
  | noStages
  deriving DecidableEq, Repr

/-- The score of an ordering that did not fail. -/
def OrderingOutcome.score? : OrderingOutcome → Option Int
  | .score s => some s
  | .failed _ _ => none
  | .notEnded _ => none

/-- The ordering's run did not end. -/
def OrderingOutcome.hangs : OrderingOutcome → Bool
  | .score _ => false
  | .failed _ _ => false
  | .notEnded _ => true

/-- The maximum of a list of scores. -/
def maxScore : List Int → Option Int
  | [] => none
  | s :: rest =>
    match maxScore rest with
    | none => some s
    | some m => some (if m < s then s else m)

/-- The result over the outcomes of all orderings (R216). -/
def searchResult (outcomes : List OrderingOutcome) : SearchOutcome :=
  if outcomes.any OrderingOutcome.hangs then .notEnded
  else
    match maxScore (outcomes.filterMap OrderingOutcome.score?) with
    | none => .allFailed
    | some m => .best m

/-- The search over all orderings of `n` stages (R216). -/
def search (fuel : Nat) (cfg : Config) (program : List Int) (n : Nat) : SearchOutcome :=
  if n = 0 then .noStages else searchResult ((orderings n).map (runOrdering fuel cfg program))

end Sys2Proof.Machine
end

