-- ==== Sys2Proof/Safety.lean ====
section
/-! DEFINITION. What counts as a good state, and what counts as a safe run, in the terms the statements use. -/

namespace Sys2Proof.Machine

/-- The state after `k` steps; `none` where a step stops. -/
def stepsTo : Nat → State → Option State
  | 0, s => some s
  | k + 1, s =>
    match step s with
    | .next t => stepsTo k t
    | .fault _ => none
    | .refused _ => none

/-- The value the step from `s` takes from the input channel: that of the answer a waiting IN takes, whether its destination
is in range or not (42_io.md R150, 44_channels.md R193; the place in the two steps of IN is log 9). -/
def State.takenByStep (s : State) : List Int :=
  match s.status with
  | .awaitInput _ =>
    match s.input.take s.cfg.width with
    | some (.value v, _) => [v]
    | some (.exhausted, _) => []
    | some (.ioError, _) => []
    | none => []
  | .running => []
  | .halted _ => []
  | .faulted _ => []

/-- The source of an OUT. -/
def putSource : Instr → Option Param
  | .output p => some p
  | .add _ _ _ => none
  | .multiply _ _ _ => none
  | .input _ => none
  | .jumpIfTrue _ _ => none
  | .jumpIfFalse _ _ => none
  | .lessThan _ _ _ => none
  | .equals _ _ _ => none
  | .halt => none

/-- The value the step from `s` puts on the output channel: that of the source of an OUT fetched in `Running`, if the source
can be read (42_io.md R151). -/
def State.putByStep (s : State) : List Int :=
  match s.status with
  | .running =>
    match fetch s with
    | .error _ => []
    | .ok (i, _) =>
      match putSource i with
      | none => []
      | some p =>
        match readVal s p with
        | .error _ => []
        | .ok v => [v]
  | .awaitInput _ => []
  | .halted _ => []
  | .faulted _ => []

/-- What the steps of a run give, step by step and in order: `ofStep` of each of its first `k` states. -/
def alongRun (ofStep : State → List Int) : Nat → State → List Int
  | 0, _ => []
  | k + 1, s =>
    match step s with
    | .next t => ofStep s ++ alongRun ofStep k t
    | .fault _ => []
    | .refused _ => []

/-- The run never takes a fault: "all failures abort the invocation" (40_engine.md R108). -/
def SafeRun (s : State) : Prop := ∀ k t, stepsTo k s = some t → ∀ record, t.status ≠ .faulted record

/-- The run reaches a terminal state (40_engine.md R113). -/
def RunEnds (s : State) : Prop := ∃ k t, stepsTo k s = some t ∧ t.status.terminal = true

/-- The status, the latch and `pc` fit together: the latch is empty but while an IN waits, and then holds that IN (10_state.md
R28, R29); a fault record names the index `pc` still holds (R22); the implicit halt stands at or above `N`, a HALT below
(40_engine.md R101, 43_control.md R172). -/
def State.statusOk (s : State) : Prop :=
  match s.status with
  | .running => s.latch = none
  | .awaitInput d => s.latch = some { instr := .input d, length := 2 } ∧ fetch s = .ok (.input d, 2)
  | .halted .haltInstr => s.latch = none ∧ s.pc < s.mem.size
  | .halted .endOfMemory => s.latch = none ∧ s.mem.size ≤ s.pc
  | .faulted record => s.latch = none ∧ record.pc = s.pc ∧ s.pc < s.mem.size

/-- The invariant of the machine: memory is canonical and no longer than `N_MAX`, every cell and every listed channel value is a Word, `pc` is at most
`N` or at most `WMAX` (10_state.md R21, R23, 40_engine.md R114), and status, latch and `pc` fit together. -/
structure State.Inv (s : State) : Prop where
  memCanonical : s.mem.wf = true
  memSupplied : s.cfg.canSupply s.mem.size = true
  memWords : s.mem.holdsWords s.cfg.width = true
  pcRange : s.pc ≤ s.mem.size ∨ (s.pc : Int) ≤ wordMax s.cfg.width
  inputWords : s.input.holdsWords s.cfg.width = true
  outputWords : s.output.holdsWords s.cfg.width = true
  statusFits : s.statusOk

/-- The memory `m'` is `m` with the Word `v` in cell `d`: the length and every other cell are as before, and the form stays
canonical. -/
structure Memory.Stored (m m' : Memory) (d : Nat) (v : Int) : Prop where
  size : m'.size = m.size
  written : m'.peek d = v
  others : ∀ a, a ≠ d → m'.peek a = m.peek a
  canonical : m'.wf = true

/-- The Words of the instruction `i` stand in memory from `a` upward. -/
def Memory.holdsInstr (m : Memory) (a : Nat) (i : Instr) : Prop :=
  a + i.length ≤ m.size ∧ ∀ j, (h : j < (encode i).length) → m.peek (a + j) = (encode i)[j]

end Sys2Proof.Machine
end

