-- ==== Sys2Proof/Certificates/Slice0/Obligations.lean ====
section
/-! DEFINITION. The statements about the core, each from a rule of the spec. They state and prove nothing.

Three things many of them say are not the rules' own words, and hold for all of them: an instruction that completes, halts or
faults leaves the latch empty (log 12, DEDUCED from 10_state.md R28); a fault keeps `pc` and records it with its payload
(decisions D15 and D13 of the spec, logs 19 and 20); the numerals 3 to 8 of IN, OUT, JT, JF, LT and EQ are decision D4 of the
spec (log 13, PRESUMED). A statement that rests on one of them for what its rule leaves open has basis 'derived' and cites it. -/

open Sys2Proof Sys2Proof.Machine

/-! ## Encoding and decoding (30_encoding.md) -/

/-- R70, R71, R82, R87: decoding the Words of an instruction gives it back with its length, whatever Words follow. -/
def Obligations.DecodeGivesBackTheEncodedInstruction : Prop :=
  ∀ (i : Instr) (rest : List Int), decode (encode i ++ rest) = .ok (i, i.length)

/-- R75, R83, R86: a view that decodes begins with the very Words that encode the instruction: no bit of it is ignored and no
other Words decode to it. -/
def Obligations.DecodedViewIsTheEncoding : Prop :=
  ∀ (view : List Int) (i : Instr) (len : Nat), decode view = .ok (i, len) →
    len = i.length ∧ view.take len = encode i

/-- R75: with enough Words after it, an instruction word decodes exactly when it is one of the 45 words of the rule's table,
and then to the kind of its row. -/
def Obligations.LegalInstructionWordsAreTheTable : Prop :=
  (legalWords.flatMap Prod.snd).length = 45 ∧
  ∀ (w : Int) (rest : List Int) (kind : Kind), 3 ≤ rest.length →
    ((∃ i len, decode (w :: rest) = .ok (i, len) ∧ i.kind = kind) ↔ ∃ row ∈ legalWords, row.1 = kind ∧ w ∈ row.2)

/-- R76: for a word that is not negative, `InvalidOpcode` is the answer exactly for the opcodes 0 and 9 to 98. -/
def Obligations.InvalidOpcodeIsTheUnlistedOpcodes : Prop :=
  ∀ (w : Int) (rest : List Int), 0 ≤ w →
    (decode (w :: rest) = .error .invalidOpcode ↔ w.toNat % 100 = 0 ∨ (9 ≤ w.toNat % 100 ∧ w.toNat % 100 ≤ 98))

/-- R77: of an instruction word whose mode digits are legal, `UnexpectedEnd` is the answer exactly when `N - pc - 1 < k`; a
word with the opcode of HALT never fails this way. -/
def Obligations.UnexpectedEndIsTooFewWords : Prop :=
  ∀ (s : State), s.pc < s.mem.size →
    (∀ i : Instr, s.mem.peek s.pc = i.word →
      (fetch s = .error .unexpectedEnd ↔ (s.mem.size : Int) - s.pc - 1 < i.kind.paramCount)) ∧
    (kindOfWord (s.mem.peek s.pc) = some .halt → fetch s ≠ .error .unexpectedEnd)

/-- R78, R79, R80 (decisions D5, D6 and D11 of the spec: negative words, over-long words and the order of the checks): every
decode failure, in the order of R80, and that nothing else fails. -/
def Obligations.DecodeFailuresComeInOrder : Prop :=
  (∀ (w : Int) (rest : List Int), w < 0 → decode (w :: rest) = .error .invalidOpcode) ∧
  ∀ (w : Int) (rest : List Int) (kind : Kind), kindOfWord w = some kind →
    (((∃ j, j < kind.paramCount ∧ 2 ≤ digit w.toNat (2 + j)) ∨ w.toNat / 10 ^ (2 + kind.paramCount) ≠ 0) →
      decode (w :: rest) = .error .invalidAddressingMode) ∧
    (¬ ((∃ j, j < kind.paramCount ∧ 2 ≤ digit w.toNat (2 + j)) ∨ w.toNat / 10 ^ (2 + kind.paramCount) ≠ 0) →
      (rest.length < kind.paramCount → decode (w :: rest) = .error .unexpectedEnd) ∧
      (kind.paramCount ≤ rest.length → ∃ i, decode (w :: rest) = .ok (i, 1 + kind.paramCount) ∧ i.kind = kind))

/-- R86: the length of an instruction follows from `w mod 100` alone. -/
def Obligations.LengthFollowsFromTheOpcode : Prop :=
  ∀ (w w' : Int) (rest rest' : List Int) (i i' : Instr) (len len' : Nat),
    decode (w :: rest) = .ok (i, len) → decode (w' :: rest') = .ok (i', len') → w.toNat % 100 = w'.toNat % 100 →
    len = 1 + i.kind.paramCount ∧ len' = len

/-- R74, R75, R87: a few words written out from the spec's tables decode to the instructions they stand for. -/
def Obligations.SampleWordsDecodeAsTheSpecSays : Prop :=
  decode [1002, 4, 3, 4] = .ok (.multiply ⟨4, .position⟩ ⟨3, .immediate⟩ ⟨4, .position⟩, 4) ∧
  decode [11101, 2, 3, 5] = .ok (.add ⟨2, .immediate⟩ ⟨3, .immediate⟩ ⟨5, .immediate⟩, 4) ∧
  decode [103, 3, 99, 0] = .ok (.input ⟨3, .immediate⟩, 2) ∧
  decode [1105, 1, 4, 0] = .ok (.jumpIfTrue ⟨1, .immediate⟩ ⟨4, .immediate⟩, 3) ∧
  decode [99] = .ok (.halt, 1) ∧
  decode [1104, 5] = .error .invalidAddressingMode

/-! ## Memory and operands (20_memory.md, 40_engine.md) -/

/-- R53: `MemWrite(a, 1, v)` raises `OutOfBounds(a)` unless `0 <= a < N`, and a write that faults changes no cell; else it
changes cell `a` to `v` and no other. -/
def Obligations.MemWriteChangesOneCellOrFaults : Prop :=
  ∀ (s : State) (a : Int) (v : Int), s.mem.wf = true →
    (a < 0 ∨ (s.mem.size : Int) ≤ a →
      memWrite s.mem a v = .error (.outOfBounds a) ∧ (s.raise (.outOfBounds a)).mem = s.mem) ∧
    (0 ≤ a → a < (s.mem.size : Int) → ∃ m', memWrite s.mem a v = .ok m' ∧ s.mem.Stored m' a.toNat v)

/-- R52, R105: `ReadVal` gives the raw value in Immediate mode and the cell at the raw value in Position mode, and raises
`OutOfBounds(raw)` exactly for a Position-mode address outside `0..N-1` (for a negative one the spec derives it). -/
def Obligations.ReadValResolvesBothModes : Prop :=
  ∀ (s : State) (raw : Int),
    readVal s ⟨raw, .immediate⟩ = .ok raw ∧
    (0 ≤ raw → raw < (s.mem.size : Int) → readVal s ⟨raw, .position⟩ = .ok (s.mem.peek raw.toNat)) ∧
    (raw < 0 ∨ (s.mem.size : Int) ≤ raw → readVal s ⟨raw, .position⟩ = .error (.outOfBounds raw))

/-- R84, R106 (for IN decision D7 of the spec): the mode digit of a destination has no effect. Two instructions that differ in
it only end in the same state, but for the parameter an IN keeps while it waits; and the completions of those agree. -/
def Obligations.DestinationModeHasNoEffect : Prop :=
  ∀ (p1 p2 : Param) (raw : Int) (m m' : Mode) (s : State),
    exec (.add p1 p2 ⟨raw, m⟩) s = exec (.add p1 p2 ⟨raw, m'⟩) s ∧
    exec (.multiply p1 p2 ⟨raw, m⟩) s = exec (.multiply p1 p2 ⟨raw, m'⟩) s ∧
    exec (.lessThan p1 p2 ⟨raw, m⟩) s = exec (.lessThan p1 p2 ⟨raw, m'⟩) s ∧
    exec (.equals p1 p2 ⟨raw, m⟩) s = exec (.equals p1 p2 ⟨raw, m'⟩) s ∧
    ∀ t answer ch, s.status = .awaitInput ⟨raw, m⟩ → s.input.take s.cfg.width = some (answer, ch) →
      step s = .next t → step { s with status := .awaitInput ⟨raw, m'⟩ } = .next t

/-! ## The ALU instructions (41_alu.md) -/

/-- What R131 and R132 say of an arithmetic instruction with opcode `op` and combination `f`: its Words, and its result. -/
def Sys2Proof.Machine.ArithmeticMeaning (mk : Param → Param → Param → Instr) (op : Nat) (f : Int → Int → Int) : Prop :=
  ∀ (p1 p2 p3 : Param) (s : State), s.mem.wf = true →
    encode (mk p1 p2 p3) =
      [((op + 100 * p1.mode.digit + 1000 * p2.mode.digit + 10000 * p3.mode.digit : Nat) : Int), p1.raw, p2.raw, p3.raw] ∧
    ∀ a b, readVal s p1 = .ok a → readVal s p2 = .ok b →
      wordMin s.cfg.width ≤ f a b → f a b ≤ wordMax s.cfg.width → 0 ≤ p3.raw → p3.raw < (s.mem.size : Int) →
      ∃ m', s.mem.Stored m' p3.raw.toNat (f a b) ∧
        exec (mk p1 p2 p3) s = .next { s with pc := s.pc + 4, mem := m', latch := none }

/-- R131: ADD stores the exact sum and advances by 4. -/
def Obligations.AddStoresTheSum : Prop := ArithmeticMeaning .add 1 fun a b => a + b

/-- R132: MUL stores the exact product and advances by 4. -/
def Obligations.MultiplyStoresTheProduct : Prop := ArithmeticMeaning .multiply 2 fun a b => a * b

/-- R130, R135 (decisions D3 and D12 of the spec): a sum or product outside `WMIN..WMAX` is the fault `Overflow` with the exact
result, whatever the destination, and nothing is written. -/
def Obligations.ResultOutOfRangeOverflows : Prop :=
  ∀ (p1 p2 p3 : Param) (s : State) (a b : Int), readVal s p1 = .ok a → readVal s p2 = .ok b →
    (a + b < wordMin s.cfg.width ∨ wordMax s.cfg.width < a + b →
      exec (.add p1 p2 p3) s =
        .next { s with status := .faulted { pc := s.pc, cause := .overflow (a + b) }, latch := none }) ∧
    (a * b < wordMin s.cfg.width ∨ wordMax s.cfg.width < a * b →
      exec (.multiply p1 p2 p3) s =
        .next { s with status := .faulted { pc := s.pc, cause := .overflow (a * b) }, latch := none })

/-- R133 (decision D4 of the spec: the numeral 7): LT stores 1 if `a < b` as signed integers, else 0, and advances by 4. -/
def Obligations.LessThanStoresTheComparison : Prop :=
  ∀ (p1 p2 p3 : Param) (s : State), s.mem.wf = true →
    encode (.lessThan p1 p2 p3) =
      [((7 + 100 * p1.mode.digit + 1000 * p2.mode.digit + 10000 * p3.mode.digit : Nat) : Int), p1.raw, p2.raw, p3.raw] ∧
    ∀ a b, readVal s p1 = .ok a → readVal s p2 = .ok b → 0 ≤ p3.raw → p3.raw < (s.mem.size : Int) →
      ∃ m', s.mem.Stored m' p3.raw.toNat (if a < b then 1 else 0) ∧
        exec (.lessThan p1 p2 p3) s = .next { s with pc := s.pc + 4, mem := m', latch := none }

/-- R134: EQ stores 1 if `a = b`, else 0, and advances by 4; its only fault is `OutOfBounds` of an operand outside `0..N-1`, and
each such operand makes it fault. (Not of R134 alone: the numeral 8 is decision D4 of the spec, log 13, PRESUMED; the empty latch
is log 12, DEDUCED, the model's; that a fault keeps `pc` and records it is D15 and D13.) -/
def Obligations.EqualsStoresTheComparison : Prop :=
  ∀ (p1 p2 p3 : Param) (s : State), s.mem.wf = true →
    (encode (.equals p1 p2 p3) =
      [((8 + 100 * p1.mode.digit + 1000 * p2.mode.digit + 10000 * p3.mode.digit : Nat) : Int), p1.raw, p2.raw, p3.raw] ∧
      (Instr.equals p1 p2 p3).length = 4) ∧
    (∀ a b, readVal s p1 = .ok a → readVal s p2 = .ok b → 0 ≤ p3.raw → p3.raw < (s.mem.size : Int) →
      ∃ m', s.mem.Stored m' p3.raw.toNat (if a = b then 1 else 0) ∧
        exec (.equals p1 p2 p3) s = .next { s with pc := s.pc + 4, mem := m', latch := none }) ∧
    ((p1.mode = .position ∧ s.mem.inBounds p1.raw = false) ∨ (p2.mode = .position ∧ s.mem.inBounds p2.raw = false) ∨
        s.mem.inBounds p3.raw = false →
      ∃ p, (p = p1 ∨ p = p2 ∨ p = p3) ∧ s.mem.inBounds p.raw = false ∧
        exec (.equals p1 p2 p3) s =
          .next { s with status := .faulted { pc := s.pc, cause := .outOfBounds p.raw }, latch := none })

/-- R130, R231, R232 (decision D12 of the spec: the order of the checks): the faults of ADD, MUL, LT and EQ other than
`Overflow`: the first source, then the second, then, after the range check, the destination. -/
def Obligations.AluFaultsComeInOrder : Prop :=
  ∀ (p1 p2 p3 : Param) (s : State) (i : Instr) (f : Int → Int → Int),
    (i = .add p1 p2 p3 ∧ f = (fun a b => a + b)) ∨ (i = .multiply p1 p2 p3 ∧ f = (fun a b => a * b)) ∨
      (i = .lessThan p1 p2 p3 ∧ f = (fun a b => if a < b then 1 else 0)) ∨
      (i = .equals p1 p2 p3 ∧ f = (fun a b => if a = b then 1 else 0)) →
    (∀ c, readVal s p1 = .error c →
      exec i s = .next { s with status := .faulted { pc := s.pc, cause := c }, latch := none }) ∧
    (∀ a c, readVal s p1 = .ok a → readVal s p2 = .error c →
      exec i s = .next { s with status := .faulted { pc := s.pc, cause := c }, latch := none }) ∧
    (∀ a b, readVal s p1 = .ok a → readVal s p2 = .ok b → isWord s.cfg.width (f a b) = true →
      p3.raw < 0 ∨ (s.mem.size : Int) ≤ p3.raw →
      exec i s = .next { s with status := .faulted { pc := s.pc, cause := .outOfBounds p3.raw }, latch := none })

/-- R54, R56, R131 to R134: the frame of the four ALU instructions: every cell but the destination's, the length, the channels
and the parameters are unchanged; with no destination, or with a fault, all of memory and `pc` are. The latch ends empty (log
12). -/
def Obligations.AluFrame : Prop :=
  ∀ (p1 p2 p3 : Param) (i : Instr) (s t : State), s.mem.wf = true →
    i = .add p1 p2 p3 ∨ i = .multiply p1 p2 p3 ∨ i = .lessThan p1 p2 p3 ∨ i = .equals p1 p2 p3 →
    exec i s = .next t →
    t.cfg = s.cfg ∧ t.input = s.input ∧ t.output = s.output ∧ t.latch = none ∧ t.mem.size = s.mem.size ∧
    (∀ d, writeAddr s p3 = .ok d → ∀ a, a ≠ d → t.mem.peek a = s.mem.peek a) ∧
    (∀ c, writeAddr s p3 = .error c → t.mem = s.mem) ∧
    (t.status = s.status ∨ (t.mem = s.mem ∧ t.pc = s.pc ∧ ∃ record, t.status = .faulted record))

/-! ## The I/O instructions and the channels (42_io.md, 44_channels.md) -/

/-- R150, step 1: IN issues one `Take()` and waits in `AwaitInput(p1)`; memory, `pc`, the latch and the output stay, and of
the input only an Interactive channel's prompt count changes. Its Words are `3 + 100*M1` and the raw value (the numeral 3 is
decision D4 of the spec, log 13, the two steps decision D26). Two clauses are the model's choice and no rule's: that a Scripted
channel is unchanged at the issue, its value leaving in the completing step, is log 9 (DEDUCED); that an Interactive channel
counts its prompts is log 10 (DESIGN CHOICE). -/
def Obligations.InputIssuesTake : Prop :=
  ∀ (p : Param) (s : State),
    encode (.input p) = [((3 + 100 * p.mode.digit : Nat) : Int), p.raw] ∧
    exec (.input p) s = .next { s with status := .awaitInput p, input := s.input.prompted } ∧
    (∀ queue, s.input = .scripted queue → s.input.prompted = .scripted queue) ∧
    (∀ text, s.input = .scriptedText text → s.input.prompted = .scriptedText text) ∧
    (∀ n pending, s.input = .interactive n pending → s.input.prompted = .interactive (n + 1) pending)

/-- R150 (decisions D7, D12 and D26 of the spec), both steps: an IN whose channel answers `Value(v)` and whose destination is
in range stores `v` there, advances by 2, and goes back to `Running` with the value consumed. -/
def Obligations.InputStoresTheTakenValue : Prop :=
  ∀ (p : Param) (s : State) (v : Int) (ch : InputChannel), s.mem.wf = true →
    s.input.prompted.take s.cfg.width = some (.value v, ch) → 0 ≤ p.raw → p.raw < (s.mem.size : Int) →
    ∃ t m', exec (.input p) s = .next t ∧ s.mem.Stored m' p.raw.toNat v ∧
      step t = .next { s with pc := s.pc + 2, mem := m', status := .running, latch := none, input := ch }

/-- R150 (decision D12 of the spec): an IN whose destination is out of range faults with `OutOfBounds(raw1)` after its value
is consumed, and memory stays. -/
def Obligations.InputOutOfRangeStillConsumes : Prop :=
  ∀ (p : Param) (s : State) (v : Int) (ch : InputChannel), s.status = .awaitInput p →
    s.input.take s.cfg.width = some (.value v, ch) → p.raw < 0 ∨ (s.mem.size : Int) ≤ p.raw →
    step s = .next { s with status := .faulted { pc := s.pc, cause := .outOfBounds p.raw }, latch := none, input := ch }

/-- R200: `Exhausted` becomes the execution error `InputExhausted`, and `IOError` the execution error `IOError`, of an IN and
of an OUT. -/
def Obligations.ChannelFailuresBecomeErrors : Prop :=
  (∀ (p : Param) (s : State) (ch : InputChannel), s.status = .awaitInput p →
    (s.input.take s.cfg.width = some (.exhausted, ch) →
      ∃ t, step s = .next t ∧ t.status.result = some (.error .inputExhausted) ∧ t.input = ch) ∧
    (s.input.take s.cfg.width = some (.ioError, ch) →
      ∃ t, step s = .next t ∧ t.status.result = some (.error .ioError) ∧ t.input = ch)) ∧
  (∀ (p : Param) (s : State) (v : Int) (ch : OutputChannel), readVal s p = .ok v → s.output.put v = (.ioError, ch) →
    ∃ t, exec (.output p) s = .next t ∧ t.status.result = some (.error .ioError) ∧ t.output = ch)

/-- R195, R242 (decision D17 of the spec): while an Interactive channel gives no answer the waiting engine keeps its whole
state; any event of the console ends the wait, and what it answers is fixed: a line whose trimmed text parses as the Word `v`
answers `Value(v)`, which is stored; one that does not parse ends in `IOError`; end of input ends in `InputExhausted`; a failure
ends in `IOError`. Whitespace around a decimal form does not matter. (The model's choice: that the wait is a step that changes
nothing, log 8; the list of console events and the prompt count, log 10; the empty latch, log 12; which characters are the
whitespace that `trim` takes off, in the clauses on a line and in the last one, log 21, PRESUMED.) -/
def Obligations.WaitKeepsStateUntilAnswered : Prop :=
  ∀ (s : State) (p : Param) (n : Nat), s.status = .awaitInput p →
    (s.input = .interactive n [] →
      step s = .next s ∧
      ∀ event, s.hostFeedsConsole event = { s with input := .interactive n [event] } ∧
        ∃ t, step (s.hostFeedsConsole event) = .next t ∧ t.input = .interactive n [] ∧
          (t.status = .running ∨ ∃ record, t.status = .faulted record)) ∧
    (∀ event rest, s.input = .interactive n (event :: rest) →
      (∀ text v, event = .line text → parseInteger s.cfg.width (trim text) = some v →
        (s.mem.wf = true → 0 ≤ p.raw → p.raw < (s.mem.size : Int) →
          ∃ m', s.mem.Stored m' p.raw.toNat v ∧
            step s = .next { s with
              pc := s.pc + 2, mem := m', status := .running, latch := none, input := .interactive n rest }) ∧
        (p.raw < 0 ∨ (s.mem.size : Int) ≤ p.raw →
          step s = .next { s with
            status := .faulted { pc := s.pc, cause := .outOfBounds p.raw }, latch := none,
            input := .interactive n rest })) ∧
      (∀ text, event = .line text → parseInteger s.cfg.width (trim text) = none →
        step s = .next { s with
          status := .faulted { pc := s.pc, cause := .ioError }, latch := none, input := .interactive n rest }) ∧
      (event = .endOfInput →
        step s = .next { s with
          status := .faulted { pc := s.pc, cause := .inputExhausted }, latch := none, input := .interactive n rest }) ∧
      (event = .failure →
        step s = .next { s with
          status := .faulted { pc := s.pc, cause := .ioError }, latch := none, input := .interactive n rest })) ∧
    ∀ (before after : List Char) (v : Int), before.all isSpace = true → after.all isSpace = true →
      isWord s.cfg.width v = true → parseInteger s.cfg.width (trim (before ++ decimal v ++ after)) = some v

/-- R194: a Scripted channel never blocks: an IN on one completes, or faults, at the step after it issues. -/
def Obligations.ScriptedInputNeverBlocks : Prop :=
  ∀ (p : Param) (s : State), (∃ queue, s.input = .scripted queue) ∨ (∃ text, s.input = .scriptedText text) →
    ∃ t u, exec (.input p) s = .next t ∧ step t = .next u ∧
      ((u.status = .running ∧ u.pc = s.pc + 2) ∨ ∃ record, u.status = .faulted record)

/-- R193: a Scripted channel answers its values strictly in order and then `Exhausted`, for ever. -/
def Obligations.ScriptedQueueIsConsumedInOrder : Prop :=
  ∀ (width k : Nat) (queue : List Int),
    (InputChannel.scripted queue).answers width (queue.length + k) =
      queue.map .value ++ List.replicate k .exhausted ∧
    (InputChannel.scripted []).take width = some (.exhausted, .scripted [])

/-- R199, R261 (decisions D16 and D19 of the spec): the decimal form of a Word parses to that Word. -/
def Obligations.DecimalFormParsesBack : Prop :=
  ∀ (width : Nat) (v : Int), isWord width v = true → parseInteger width (decimal v) = some v

/-- R199: a core whose Scripted channel is backed by the text of a list of Words runs in lockstep with one whose channel holds
the list. -/
def Obligations.TextBackedChannelRunsLikeTheQueue : Prop :=
  ∀ (n : Nat) (s t : State) (queue : List Int), queue.all (isWord s.cfg.width) = true →
    stepsTo n { s with input := .scripted queue } = some t →
    ∃ queue', t.input = .scripted queue' ∧
      stepsTo n { s with input := .scriptedText (linesOfWords queue) } =
        some { t with input := .scriptedText (linesOfWords queue') }

/-- R151: OUT resolves its source and puts it on the output channel with one `Put`, then advances by 2; an out-of-range source
faults before any `Put`, `IOError` faults after it; a Collecting sink appends and never fails; memory stays. (Not of R151 alone:
the numeral 4 is decision D4 of the spec, log 13, PRESUMED; the empty latch is log 12, DEDUCED, the model's; that a fault keeps
`pc` and records it is D15 and D13; that a Collecting sink always answers `Ok` is D19.) -/
def Obligations.OutputPutsTheValue : Prop :=
  ∀ (p : Param) (s : State),
    (encode (.output p) = [((4 + 100 * p.mode.digit : Nat) : Int), p.raw] ∧ (Instr.output p).length = 2) ∧
    (∀ v ch, readVal s p = .ok v → s.output.put v = (.ok, ch) →
      exec (.output p) s = .next { s with pc := s.pc + 2, latch := none, output := ch }) ∧
    (∀ v ch, readVal s p = .ok v → s.output.put v = (.ioError, ch) →
      exec (.output p) s =
        .next { s with status := .faulted { pc := s.pc, cause := .ioError }, latch := none, output := ch }) ∧
    (p.mode = .position → p.raw < 0 ∨ (s.mem.size : Int) ≤ p.raw →
      exec (.output p) s =
        .next { s with status := .faulted { pc := s.pc, cause := .outOfBounds p.raw }, latch := none }) ∧
    (∀ values v, (OutputChannel.collecting values).put v = (.ok, .collecting (values ++ [v])))

/-- R191, R197 (decision D18 of the spec): an Interactive output whose host answers `Ok` shows the line, one whose host answers
`IOError` makes the OUT fault; either way it is one transaction. With no answer listed either may come (log 11). -/
def Obligations.InteractiveOutputFollowsTheHost : Prop :=
  ∀ (p : Param) (s : State) (v : Int) (lines : List (List Char)) (puts : Nat) (answers : List PutAnswer),
    readVal s p = .ok v → s.output = .interactive lines puts answers →
    (answers.head? = some .ok → exec (.output p) s = .next { s with
      pc := s.pc + 2, latch := none,
      output := .interactive (lines ++ [decimal v ++ ['\n']]) (puts + 1) answers.tail }) ∧
    (answers.head? = some .ioError → exec (.output p) s = .next { s with
      status := .faulted { pc := s.pc, cause := .ioError }, latch := none,
      output := .interactive lines (puts + 1) answers.tail }) ∧
    ∃ t, exec (.output p) s = .next t ∧ (t.pc = s.pc + 2 ∨ t.status = .faulted { pc := s.pc, cause := .ioError }) ∧
      ∃ lines', t.output = .interactive lines' (puts + 1) answers.tail

/-- R152: the input channel changes only by the two steps of an IN and the output channel only by an OUT, by one transaction
each. (The model's choice and no rule's: that the issue only prompts the channel, the value leaving in the completing step, is
log 9, DEDUCED; that a prompt is a count is log 10, DESIGN CHOICE.) -/
def Obligations.OnlyInAndOutTouchTheChannels : Prop :=
  ∀ (s t : State), step s = .next t →
    (t.input = s.input ∨
      (s.status = .running ∧ t.input = s.input.prompted ∧ ∃ p, fetch s = .ok (.input p, 2)) ∨
      (∃ p ans, s.status = .awaitInput p ∧ s.input.take s.cfg.width = some (ans, t.input))) ∧
    (t.output = s.output ∨
      (s.status = .running ∧ ∃ p v, fetch s = .ok (.output p, 2) ∧ readVal s p = .ok v ∧ t.output = (s.output.put v).2))

/-- R198: no run resets or empties a channel: of a Scripted queue exactly the values the waiting INs took are gone, and the rest
is left in order; to a Collecting sequence exactly the values the OUTs put are added, in order, those before a fault too. (An IN
whose destination is out of range has taken its value, decision D12 of the spec. That a value leaves in the completing step of
its IN, and not at the issue, is the model's choice, log 9, DEDUCED.) -/
def Obligations.RunsKeepChannelState : Prop :=
  ∀ (n : Nat) (s t : State) (queue values : List Int), s.input = .scripted queue → s.output = .collecting values →
    stepsTo n s = some t →
    (∃ left, queue = alongRun State.takenByStep n s ++ left ∧ t.input = .scripted left) ∧
    t.output = .collecting (values ++ alongRun State.putByStep n s)

/-- R192, R196: the core never observes what a Collecting output holds: two runs that differ only in it differ only in it, and
both add the same values. -/
def Obligations.CollectedOutputIsNeverObserved : Prop :=
  ∀ (n : Nat) (s t : State) (values values' : List Int), stepsTo n { s with output := .collecting values } = some t →
    ∃ added, t.output = .collecting (values ++ added) ∧
      stepsTo n { s with output := .collecting values' } = some { t with output := .collecting (values' ++ added) }

/-! ## Control transfer (43_control.md) -/

/-- What R170, R171 and R173 say of a jump with opcode `op` that is taken on the conditions `taken`. -/
def Sys2Proof.Machine.JumpMeaning (mk : Param → Param → Instr) (op : Nat) (taken : Int → Prop) : Prop :=
  ∀ (p1 p2 : Param) (s : State),
    encode (mk p1 p2) = [((op + 100 * p1.mode.digit + 1000 * p2.mode.digit : Nat) : Int), p1.raw, p2.raw] ∧
    (∀ c x, readVal s p1 = .ok c → taken c → readVal s p2 = .ok x → 0 ≤ x →
      exec (mk p1 p2) s = .next { s with pc := x.toNat, latch := none }) ∧
    (∀ c, readVal s p1 = .ok c → ¬ taken c → s.cfg.jumpTargetEval = .lazy ∨ (∃ x, readVal s p2 = .ok x) →
      exec (mk p1 p2) s = .next { s with pc := s.pc + 3, latch := none })

/-- R170 (decision D4 of the spec: the numeral 5): JT sets `pc` to the target's value when the condition is not 0, else
advances by 3. -/
def Obligations.JumpIfTrueSetsPc : Prop := JumpMeaning .jumpIfTrue 5 fun c => c ≠ 0

/-- R171 (decision D4 of the spec: the numeral 6): JF sets `pc` to the target's value when the condition is 0, else advances
by 3. -/
def Obligations.JumpIfFalseSetsPc : Prop := JumpMeaning .jumpIfFalse 6 fun c => c = 0

/-- R170, R171, R173, R231 (decisions D8, D9 and D12 of the spec): the faults of the jumps under both values of
`jump_target_eval`: the condition, then the target's address, then a negative target. -/
def Obligations.JumpFaultsComeInOrder : Prop :=
  ∀ (p1 p2 : Param) (s : State) (i : Instr) (taken : Int → Prop),
    (i = .jumpIfTrue p1 p2 ∧ taken = fun c => c ≠ 0) ∨ (i = .jumpIfFalse p1 p2 ∧ taken = fun c => c = 0) →
    (∀ e, readVal s p1 = .error e →
      exec i s = .next { s with status := .faulted { pc := s.pc, cause := e }, latch := none }) ∧
    (∀ c e, readVal s p1 = .ok c → readVal s p2 = .error e → taken c ∨ s.cfg.jumpTargetEval = .eager →
      exec i s = .next { s with status := .faulted { pc := s.pc, cause := e }, latch := none }) ∧
    (∀ c x, readVal s p1 = .ok c → readVal s p2 = .ok x → taken c → x < 0 →
      exec i s = .next { s with status := .faulted { pc := s.pc, cause := .outOfBounds x }, latch := none })

/-- R173 (decision D8 of the spec): `lazy` and `eager` differ in one case only, a jump that is not taken and whose Position-mode
target is out of range; every other instruction ends alike under both. -/
def Obligations.LazyAndEagerDifferInOneCase : Prop :=
  ∀ (i : Instr) (s t : State), s.cfg.jumpTargetEval = .lazy → exec i s = .next t →
    (exec i { s with cfg := { s.cfg with jumpTargetEval := .eager } } =
      .next { t with cfg := { s.cfg with jumpTargetEval := .eager } }) ∨
    (∃ p1 p2 c, readVal s p1 = .ok c ∧ ((i = .jumpIfTrue p1 p2 ∧ c = 0) ∨ (i = .jumpIfFalse p1 p2 ∧ c ≠ 0)) ∧
      p2.mode = .position ∧ s.mem.inBounds p2.raw = false ∧ t.pc = s.pc + 3)

/-- R172 (decision D15 of the spec: `pc` stays): HALT is the Word 99 alone, ends the run normally, never faults, and leaves
memory, `pc` and the channels. -/
def Obligations.HaltEndsTheRun : Prop :=
  ∀ (s : State), encode .halt = [99] ∧
    exec .halt s = .next { s with status := .halted .haltInstr, latch := none } ∧
    (∀ rest, decode (99 :: rest) = .ok (.halt, 1)) ∧
    ∃ t, exec .halt s = .next t ∧ t.status.result = some (.ok ()) ∧ step t = .fault .invocationEnded

/-- R151, R170, R171, R172, R150: the frame of the instructions that store nothing (OUT, JT, JF, HALT, and IN when it issues):
memory and the parameters are unchanged, the input but by IN, the output but by OUT. (The latch and the `pc` of HALT: logs 12
and 19.) -/
def Obligations.NonStoringFrame : Prop :=
  ∀ (i : Instr) (p1 p2 : Param) (s t : State),
    i = .output p1 ∨ i = .jumpIfTrue p1 p2 ∨ i = .jumpIfFalse p1 p2 ∨ i = .halt ∨ i = .input p1 →
    exec i s = .next t →
    t.mem = s.mem ∧ t.cfg = s.cfg ∧ (i ≠ .input p1 → t.input = s.input) ∧ (i ≠ .output p1 → t.output = s.output) ∧
    (i = .input p1 → t.pc = s.pc ∧ t.latch = s.latch) ∧ (i ≠ .input p1 → t.latch = none) ∧
    (i = .halt → t.pc = s.pc ∧ t.status = .halted .haltInstr) ∧
    (i = .output p1 ∨ i = .jumpIfTrue p1 p2 ∨ i = .jumpIfFalse p1 p2 →
      t.status = s.status ∨ (t.pc = s.pc ∧ ∃ record, t.status = .faulted record))

/-- R150, R54: the frame of the step that completes an IN: the output, the parameters, the length and every cell but the
destination's are unchanged; with no destination in range all of memory is. -/
def Obligations.InputCompletionFrame : Prop :=
  ∀ (p : Param) (s t : State), s.mem.wf = true → s.status = .awaitInput p → step s = .next t →
    t.cfg = s.cfg ∧ t.output = s.output ∧ t.mem.size = s.mem.size ∧
    (∀ d, writeAddr s p = .ok d → ∀ a, a ≠ d → t.mem.peek a = s.mem.peek a) ∧
    (∀ c, writeAddr s p = .error c → t.mem = s.mem) ∧
    (t.status ≠ .running → t.mem = s.mem ∧ t.pc = s.pc)

/-! ## The engine (40_engine.md, 60_exceptions.md) -/

/-- R102: with `pc < N` a step decodes the Words at `pc`: a failure `X` raises `InvalidProgram(X, pc, M[pc])`; otherwise the
instruction is latched with its length and executed. (Not of R102: that the failure leaves the latch empty is log 12, DEDUCED, the
model's; that it keeps and records `pc` is decisions D15 and D13 of the spec.) -/
def Obligations.StepRunsTheDecodedInstruction : Prop :=
  ∀ (s : State), s.status = .running → s.pc < s.mem.size →
    (∀ x, fetch s = .error x → step s = .next { s with
      status := .faulted { pc := s.pc, cause := .invalidProgram x (s.mem.peek s.pc) }, latch := none }) ∧
    (∀ i len, fetch s = .ok (i, len) → step s = exec i { s with latch := some { instr := i, length := len } }) ∧
    (∀ i, s.mem.holdsInstr s.pc i → fetch s = .ok (i, i.length))

/-- R101: with `pc >= N` the step is the implicit halt and does nothing else: no fetch, no fault. (Not of R101: that the latch is
left empty is log 12, DEDUCED, the model's; it is empty there already in every state that meets the invariant.) -/
def Obligations.RunningOffTheEndHalts : Prop :=
  ∀ (s : State), s.status = .running → s.mem.size ≤ s.pc →
    step s = .next { s with status := .halted .endOfMemory, latch := none } ∧
    ∃ t, step s = .next t ∧ t.status.result = some (.ok ())

/-- R81, R102: a decode failure leaves memory, `pc` and the channels unchanged. -/
def Obligations.DecodeFailureLeavesTheMachine : Prop :=
  ∀ (s : State) (x : DecodeError), s.status = .running → s.pc < s.mem.size → fetch s = .error x →
    ∃ t, step s = .next t ∧ t.mem = s.mem ∧ t.pc = s.pc ∧ t.input = s.input ∧ t.output = s.output ∧
      t.status.result = some (.error (.invalidProgram x))

/-- R109: a terminal state takes no step, and `execute` returns `Ok(())` for both halts and `Err(K)` for a fault; a state that
is not terminal has no result and takes a step. (The model's choice: that "no step" is the stop `invocationEnded`, log 7; and that
a waiting state takes a step at all, where R100 says that with no answer there is none: the wait is a step that answers the same
state, log 8.) -/
def Obligations.TerminalStatesTakeNoStep : Prop :=
  ∀ (s : State),
    ((∃ r, s.status = .halted r) → step s = .fault .invocationEnded ∧ s.status.result = some (.ok ())) ∧
    (∀ record, s.status = .faulted record →
      step s = .fault .invocationEnded ∧ s.status.result = some (.error record.cause.kind)) ∧
    (s.status = .running ∨ (∃ p, s.status = .awaitInput p) → (∃ t, step s = .next t) ∧ s.status.result = none)

/-- R100 (IN in two steps: decision D26 of the spec): the transition table. -/
def Obligations.StatusTransitionsAreTheTable : Prop :=
  ∀ (s t : State), step s = .next t →
    (s.status = .running ∧ s.mem.size ≤ s.pc ∧ t.status = .halted .endOfMemory) ∨
    (s.status = .running ∧ s.pc < s.mem.size ∧
      ((∃ x, fetch s = .error x ∧
          t.status = .faulted { pc := s.pc, cause := .invalidProgram x (s.mem.peek s.pc) }) ∨
        (fetch s = .ok (.halt, 1) ∧ t.status = .halted .haltInstr) ∨
        (∃ p, fetch s = .ok (.input p, 2) ∧ t.status = .awaitInput p) ∨
        (∃ i len, fetch s = .ok (i, len) ∧ i.kind ≠ .halt ∧ i.kind ≠ .input ∧
          (t.status = .running ∨ ∃ c, t.status = .faulted { pc := s.pc, cause := c })))) ∨
    (∃ p, s.status = .awaitInput p ∧
      ((s.input.take s.cfg.width = none ∧ t = s) ∨
        (∃ v ch, s.input.take s.cfg.width = some (.value v, ch) ∧
          ((s.mem.inBounds p.raw = true ∧ t.status = .running ∧ t.pc = s.pc + 2) ∨
            (s.mem.inBounds p.raw = false ∧ t.status = .faulted { pc := s.pc, cause := .outOfBounds p.raw }))) ∨
        (∃ ch, s.input.take s.cfg.width = some (.exhausted, ch) ∧
          t.status = .faulted { pc := s.pc, cause := .inputExhausted }) ∨
        (∃ ch, s.input.take s.cfg.width = some (.ioError, ch) ∧
          t.status = .faulted { pc := s.pc, cause := .ioError })))

/-- R108, R233 (decisions D13 and D15 of the spec: the recorded `pc`): a step that faults writes no memory, puts nothing and
leaves `pc`, records that index, and of the input consumes at most the value of a waiting IN. -/
def Obligations.FaultsArePrecise : Prop :=
  ∀ (s t : State) (record : FaultRecord), step s = .next t → t.status = .faulted record →
    record.pc = s.pc ∧ t.pc = s.pc ∧ t.mem = s.mem ∧ t.cfg = s.cfg ∧
    (s.status = .running → t.input = s.input) ∧
    (∀ values, s.output = .collecting values → t.output = .collecting values) ∧
    (∀ lines puts answers, s.output = .interactive lines puts answers →
      ∃ puts' answers', t.output = .interactive lines puts' answers')

/-- R104 (decision D10 of the spec: a jump to itself does not advance): an instruction that completes in `Running` advances `pc`
by its length, or is a jump whose target's value `pc` now is. -/
def Obligations.CompletedInstructionMovesPc : Prop :=
  ∀ (i : Instr) (s t : State), s.status = .running → exec i s = .next t → t.status = .running →
    t.pc = s.pc + i.length ∨
    ∃ p1 p2, (i = .jumpIfTrue p1 p2 ∨ i = .jumpIfFalse p1 p2) ∧ readVal s p2 = .ok (t.pc : Int)

/-- R23, R54, R59: memory changes only by a completing ADD, MUL, LT, EQ or IN, and only at the address its destination
resolves to; `N` and the parameters never change. -/
def Obligations.OnlyFiveInstructionsWriteMemory : Prop :=
  ∀ (s t : State), s.mem.wf = true → step s = .next t →
    t.mem.size = s.mem.size ∧ t.cfg = s.cfg ∧
    (t.mem = s.mem ∨
      (∃ p d, s.status = .awaitInput p ∧ writeAddr s p = .ok d ∧ ∀ a, a ≠ d → t.mem.peek a = s.mem.peek a) ∨
      (∃ i p1 p2 p3 len d, s.status = .running ∧ fetch s = .ok (i, len) ∧
        (i = .add p1 p2 p3 ∨ i = .multiply p1 p2 p3 ∨ i = .lessThan p1 p2 p3 ∨ i = .equals p1 p2 p3) ∧
        writeAddr s p3 = .ok d ∧ ∀ a, a ≠ d → t.mem.peek a = s.mem.peek a))

/-- R111: a JT whose literal condition is not 0 and whose literal target is its own index never ends: no fuel is enough. -/
def Obligations.JumpToItselfNeverEnds : Prop :=
  ∀ (fuel : Nat) (s : State) (c : Int), s.status = .running →
    s.mem.holdsInstr s.pc (.jumpIfTrue ⟨c, .immediate⟩ ⟨(s.pc : Int), .immediate⟩) → c ≠ 0 →
    runToEnd fuel s = none

/-- R113 (fuel: log 23): a run under fuel gives a state exactly when that state is terminal and is reached within the fuel. -/
def Obligations.RunUnderFuelIsReachingTheEnd : Prop :=
  ∀ (fuel : Nat) (s t : State), runToEnd fuel s = some t ↔
    ∃ k, k ≤ fuel ∧ stepsTo k s = some t ∧ t.status.terminal = true

/-! ## The invariant -/

/-- R21, R23, R24, R28, R29: every step keeps the invariant `State.Inv`: canonical memory of Words, `pc` at most `N` or at most
`WMAX`, channel values that are Words, and a status that fits the latch and `pc`. -/
def Obligations.StepKeepsTheInvariant : Prop :=
  ∀ (s t : State), s.Inv → step s = .next t → t.Inv

/-- R33 and log 3: the invariant holds of `State.reset`. -/
def Obligations.ResetMeetsTheInvariant : Prop := State.reset.Inv

/-- R33, R260: the invariant holds after the reset of every image of Words the host can supply, with channels of Words. -/
def Obligations.EveryInvocationMeetsTheInvariant : Prop :=
  ∀ (cfg : Config) (image : List Int) (input : InputChannel) (output : OutputChannel),
    image.all (isWord cfg.width) = true → cfg.canSupply image.length = true →
    input.holdsWords cfg.width = true → output.holdsWords cfg.width = true →
    (resetWith cfg image input output).Inv

/-! ## Reset, invocations and the loader (70_reset_and_hazards.md) -/

/-- R260: reset gives memory the image, `N` its length, `pc` 0, `Running`, an empty latch, and attaches the channels as they are;
an empty image takes the implicit halt at its first step. -/
def Obligations.ResetLoadsTheImage : Prop :=
  ∀ (cfg : Config) (image : List Int) (input : InputChannel) (output : OutputChannel),
    (resetWith cfg image input output).mem.contents = image ∧
    (resetWith cfg image input output).mem.size = image.length ∧
    (resetWith cfg image input output).pc = 0 ∧ (resetWith cfg image input output).status = .running ∧
    (resetWith cfg image input output).latch = none ∧
    (resetWith cfg image input output).input = input ∧ (resetWith cfg image input output).output = output ∧
    ∃ t, step (resetWith cfg [] input output) = .next t ∧ t.status = .halted .endOfMemory

/-- R263: a new invocation after a run is a new reset, with the image it is given or the memory the run left, and with the
channels as the run left them; a run that has ended is not resumed. -/
def Obligations.ReinvocationIsANewReset : Prop :=
  ∀ (s : State) (image : List Int),
    s.reinvoke image = resetWith s.cfg image s.input s.output ∧
    (s.mem.wf = true → s.reinvokeInPlace = resetWith s.cfg s.mem.contents s.input s.output) ∧
    (s.status.terminal = true → step s = .fault .invocationEnded)

/-- R89, R261 (decision D16 of the spec): the loader reads back the program text of every image that is not empty. -/
def Obligations.LoaderReadsBackProgramText : Prop :=
  ∀ (width : Nat) (image : List Int), image ≠ [] → image.all (isWord width) = true →
    parseProgram width (programText image) = .ok image

/-- R261 (decision D16 of the spec): the loader gives one Word per token, never an empty image, and fails if any token fails.
(Which characters are trimmed off a token is log 21, PRESUMED, the model's.) -/
def Obligations.LoaderGivesWordsOrFails : Prop :=
  ∀ (width : Nat) (text : List Char),
    (∀ image, parseProgram width text = .ok image →
      image.length = (tokensOf text).length ∧ image ≠ [] ∧ image.all (isWord width) = true) ∧
    ((∃ token ∈ tokensOf text, parseInteger width token = none) → parseProgram width text = .error .parseError)

/-! ## The pipeline (45_pipeline.md) -/

/-- R210: for a stage count `n` there are exactly `n!` orderings, pairwise distinct, and they are the permutations of
`0..n-1`. -/
def Obligations.OrderingsAreThePermutations : Prop :=
  ∀ (n : Nat), (orderings n).length = n.factorial ∧ (orderings n).Nodup ∧
    ∀ phases, phases ∈ orderings n ↔ phases.Perm (List.range n)

/-- R212 to R215, R217 (decision D20 of the spec): an ordering with one more stage runs that stage on the score so far; a failed
or hanging stage ends it, and later stages do not run. A stage is one `execute` (R112: a reset and a run) of the program with the
Scripted input `[phase, s]` and an empty Collecting output: an `Ok` run gives its last collected value, or fails with `NoOutput`
when it collected none; an `Err(K)` run fails with `K`; there is no other end. (The fuel and "not ended" are the model's, log
23.) -/
def Obligations.StagesRunInSequence : Prop :=
  ∀ (fuel : Nat) (cfg : Config) (program : List Int) (phases : List Nat) (phase : Nat) (later : List Nat),
    runOrdering fuel cfg program [] = .score 0 ∧
    (∀ s, runOrdering fuel cfg program phases = .score s →
      runOrdering fuel cfg program (phases ++ [phase]) =
        (match runStage fuel cfg program phase s with
        | .output v => .score v
        | .failed k => .failed phases.length k
        | .notEnded => .notEnded phases.length)) ∧
    (∀ i k, runOrdering fuel cfg program phases = .failed i k →
      runOrdering fuel cfg program (phases ++ later) = .failed i k) ∧
    (∀ i, runOrdering fuel cfg program phases = .notEnded i →
      runOrdering fuel cfg program (phases ++ later) = .notEnded i) ∧
    ∀ s : Int,
      execute fuel cfg program (.scripted [(phase : Int), s]) (.collecting []) =
        runToEnd fuel (resetWith cfg program (.scripted [(phase : Int), s]) (.collecting [])) ∧
      (execute fuel cfg program (.scripted [(phase : Int), s]) (.collecting []) = none →
        runStage fuel cfg program phase s = .notEnded) ∧
      ∀ t, execute fuel cfg program (.scripted [(phase : Int), s]) (.collecting []) = some t →
        (∀ earlier v, t.status.result = some (.ok ()) → t.output = .collecting (earlier ++ [v]) →
          runStage fuel cfg program phase s = .output v) ∧
        (t.status.result = some (.ok ()) → t.output = .collecting [] →
          runStage fuel cfg program phase s = .failed .noOutput) ∧
        (∀ k, t.status.result = some (.error k) → runStage fuel cfg program phase s = .failed k) ∧
        (∃ values, t.output = .collecting values) ∧ t.status.result ≠ none

/-- R211, R216 (decisions D21 and D22 of the spec): whatever order the generator lists the orderings in, the search gives `m`
exactly when every ordering ends, one scores `m`, and none scores more. (The model's choice and no rule's: the fuel under which
an ordering ends, log 23; that a search with an ordering that has not ended is itself not ended, log 24.) -/
def Obligations.SearchGivesTheMaximum : Prop :=
  ∀ (fuel : Nat) (cfg : Config) (program : List Int) (n : Nat) (listed : List (List Nat)) (m : Int),
    0 < n → listed.Perm (orderings n) →
    search fuel cfg program n = searchResult (listed.map (runOrdering fuel cfg program)) ∧
    (search fuel cfg program n = .best m ↔
      (∀ phases ∈ orderings n, ∀ i, runOrdering fuel cfg program phases ≠ .notEnded i) ∧
      (∃ phases ∈ orderings n, runOrdering fuel cfg program phases = .score m) ∧
      ∀ phases ∈ orderings n, ∀ s, runOrdering fuel cfg program phases = .score s → s ≤ m)

/-! ## Pseudo-instructions (30_encoding.md) -/

/-- R88 (decision D25 of the spec): the Words of the pseudo-instructions, and what they do: JMP sets `pc`, MOV copies, NEG
negates or overflows, and NOP only advances by 3, under both values of `jump_target_eval`. -/
def Obligations.PseudoInstructionsExpand : Prop :=
  ∀ (s : State) (p : Param) (d : Int), s.mem.wf = true →
    (encode (Pseudo.jmp p).expand = [105 + 1000 * (p.mode.digit : Int), 1, p.raw] ∧
      encode (Pseudo.mov p d).expand = [1001 + 100 * (p.mode.digit : Int), p.raw, 0, d] ∧
      encode (Pseudo.neg p d).expand = [1002 + 100 * (p.mode.digit : Int), p.raw, -1, d] ∧
      encode Pseudo.nop.expand = [1106, 1, 0]) ∧
    exec Pseudo.nop.expand s = .next { s with pc := s.pc + 3, latch := none } ∧
    (∀ x, readVal s p = .ok x → 0 ≤ x →
      exec (Pseudo.jmp p).expand s = .next { s with pc := x.toNat, latch := none }) ∧
    (∀ x, readVal s p = .ok x → isWord s.cfg.width x = true → 0 ≤ d → d < (s.mem.size : Int) →
      (∃ m', s.mem.Stored m' d.toNat x ∧
        exec (Pseudo.mov p d).expand s = .next { s with pc := s.pc + 4, mem := m', latch := none }) ∧
      (x ≠ wordMin s.cfg.width → ∃ m', s.mem.Stored m' d.toNat (-x) ∧
        exec (Pseudo.neg p d).expand s = .next { s with pc := s.pc + 4, mem := m', latch := none }) ∧
      (x = wordMin s.cfg.width → exec (Pseudo.neg p d).expand s = .next { s with
        status := .faulted { pc := s.pc, cause := .overflow (-x) }, latch := none }))
end

