-- ==== Sys2Proof/Laws/Decode.lean ====
section
/-! SUPPORT. What the decoder can answer, and the tables of the encoding. -/

namespace Sys2Proof

/-- The opcode map gives back the kind whose opcode it is asked for. -/
@[simp] theorem kindOfOpcode_opcode (k : Kind) : kindOfOpcode k.opcode = some k := by cases k <;> rfl

/-- An opcode of the map is the opcode of the kind it names. -/
theorem kindOfOpcode_eq_some {op : Nat} {k : Kind} (h : kindOfOpcode op = some k) : op = k.opcode := by
  have key : ∀ row ∈ opMap, row.1 = row.2.opcode := by decide
  have : ∀ (rows : List (Nat × Kind)), (∀ row ∈ rows, row.1 = row.2.opcode) → rows.lookup op = some k → op = k.opcode := by
    intro rows
    induction rows with
    | nil => intro _ h; cases h
    | cons row rows ih =>
      obtain ⟨n, k'⟩ := row
      intro hr hl
      simp only [List.lookup_cons] at hl
      split at hl
      · rename_i heq
        cases hl
        rw [beq_iff_eq] at heq
        rw [heq]
        exact hr (n, k) List.mem_cons_self
      · exact ih (fun row hrow => hr row (List.mem_cons_of_mem _ hrow)) hl
  exact this opMap key h

/-- A mode's digit gives the mode back. -/
@[simp] theorem modeOfDigit_digit (m : Mode) : modeOfDigit m.digit = some m := by cases m <;> rfl

/-- A digit that selects a mode is that mode's digit. -/
theorem modeOfDigit_eq_some {d : Nat} {m : Mode} (h : modeOfDigit d = some m) : d = m.digit := by
  unfold modeOfDigit at h
  split at h <;> cases h <;> rfl

/-- A digit selects a mode exactly when it is 0 or 1. -/
theorem modeOfDigit_eq_none {d : Nat} : modeOfDigit d = none ↔ 2 ≤ d := by
  unfold modeOfDigit
  split
  · simp
  · simp
  · rename_i h0 h1
    simp only [true_iff]
    rcases d with _ | _ | d
    · exact absurd rfl h0
    · exact absurd rfl h1
    · omega

/-- The modes read from `n` digits are `n` modes. -/
theorem length_modesFrom {w : Nat} : ∀ {n k : Nat} {ms : List Mode}, modesFrom w k n = some ms → ms.length = n := by
  intro n
  induction n with
  | zero => intro k ms h; cases h; rfl
  | succ n ih =>
    intro k ms h
    unfold modesFrom at h
    split at h
    · rename_i m ms' _ h2
      cases h
      simp [ih h2]
    · cases h

/-- Reading `n` mode digits fails exactly when one of them is neither 0 nor 1. -/
theorem modesFrom_eq_none {w : Nat} : ∀ {n k : Nat}, modesFrom w k n = none ↔ ∃ j, j < n ∧ 2 ≤ digit w (k + j) := by
  intro n
  induction n with
  | zero => intro k; simp [modesFrom]
  | succ n ih =>
    intro k
    unfold modesFrom
    constructor
    · intro h
      cases h1 : modeOfDigit (digit w k) with
      | none => exact ⟨0, by omega, by simpa using modeOfDigit_eq_none.1 h1⟩
      | some m =>
        cases h2 : modesFrom w (k + 1) n with
        | none =>
          obtain ⟨j, hj, hd⟩ := ih.1 h2
          exact ⟨j + 1, by omega, by rwa [show k + (j + 1) = k + 1 + j by omega]⟩
        | some ms => simp [h1, h2] at h
    · rintro ⟨j, hj, hd⟩
      cases j with
      | zero => rw [modeOfDigit_eq_none.2 (by simpa using hd)]
      | succ j =>
        rw [ih.2 ⟨j, by omega, by rwa [show k + 1 + j = k + (j + 1) by omega]⟩]
        split <;> first | rfl | simp_all

/-- A kind builds an instruction from exactly as many parameters as it has, and the instruction has that kind and those
parameters. -/
theorem build_eq_some {k : Kind} {ps : List Param} {i : Instr} : k.build ps = some i ↔ i.kind = k ∧ i.params = ps := by
  constructor
  · intro h
    unfold Kind.build at h
    split at h <;> cases h <;> exact ⟨rfl, rfl⟩
  · rintro ⟨rfl, rfl⟩
    cases i <;> rfl

/-- A kind builds an instruction from as many parameters as its parameter count. -/
theorem build_isSome {k : Kind} {ps : List Param} (h : ps.length = k.paramCount) : ∃ i, k.build ps = some i := by
  cases k <;>
    (rcases ps with _ | ⟨a, _ | ⟨b, _ | ⟨c, _ | ⟨d, ps⟩⟩⟩⟩ <;>
      first | exact ⟨_, rfl⟩ | (simp [Kind.paramCount] at h))

/-- An instruction has as many parameters as its kind's parameter count. -/
theorem length_params (i : Instr) : i.params.length = i.kind.paramCount := by cases i <;> rfl

/-- The instruction word of an instruction selects its kind (30_encoding.md R71, R74). -/
theorem kindOfWord_word (i : Instr) : kindOfWord i.word = some i.kind := by
  have hsmall : ∀ ps : List Param, modeDigits 100 ps % 100 = 0 := by
    have hdvd : ∀ (ps : List Param) (scale : Nat), 100 ∣ scale → 100 ∣ modeDigits scale ps := by
      intro ps
      induction ps with
      | nil => intro scale _; exact Nat.dvd_zero 100
      | cons p ps ih =>
        intro scale h
        exact Nat.dvd_add (Dvd.dvd.mul_right h _) (ih _ (Dvd.dvd.mul_left h 10))
    exact fun ps => Nat.mod_eq_zero_of_dvd (hdvd ps 100 (Nat.dvd_refl 100))
  have hop : i.kind.opcode < 100 := by cases i.kind <;> decide
  have hnat : i.word.toNat = i.kind.opcode + modeDigits 100 i.params := rfl
  have hpos : ¬ i.word < 0 := Int.not_lt.2 (Int.natCast_nonneg _)
  unfold kindOfWord
  rw [if_neg hpos, hnat, Nat.add_mod, hsmall, Nat.add_zero, Nat.mod_mod, Nat.mod_eq_of_lt hop]
  exact kindOfOpcode_opcode _

/-- The mode digits of an instruction word are the modes of its parameters, and nothing stands above them (R71). -/
theorem modesOf_word (i : Instr) : modesOf i.word.toNat i.kind.paramCount = some (i.params.map Param.mode) := by
  have one : ∀ (k : Kind) (m : Mode), k.paramCount = 1 →
      modesOf (k.opcode + 100 * m.digit) 1 = some [m] := by
    intro k m; cases k <;> cases m <;> decide
  have two : ∀ (k : Kind) (m n : Mode), k.paramCount = 2 →
      modesOf (k.opcode + (100 * m.digit + 1000 * n.digit)) 2 = some [m, n] := by
    intro k m n; cases k <;> cases m <;> cases n <;> decide
  have three : ∀ (k : Kind) (m n o : Mode), k.paramCount = 3 →
      modesOf (k.opcode + (100 * m.digit + (1000 * n.digit + 10000 * o.digit))) 3 = some [m, n, o] := by
    intro k m n o; cases k <;> cases m <;> cases n <;> cases o <;> decide
  cases i with
  | add a b dst => exact three .add a.mode b.mode dst.mode rfl
  | multiply a b dst => exact three .multiply a.mode b.mode dst.mode rfl
  | input dst => exact one .input dst.mode rfl
  | output src => exact one .output src.mode rfl
  | jumpIfTrue cond target => exact two .jumpIfTrue cond.mode target.mode rfl
  | jumpIfFalse cond target => exact two .jumpIfFalse cond.mode target.mode rfl
  | lessThan a b dst => exact three .lessThan a.mode b.mode dst.mode rfl
  | equals a b dst => exact three .equals a.mode b.mode dst.mode rfl
  | halt => decide

/-- Everything a successful decode says (30_encoding.md R82). -/
theorem decode_eq_ok {view : List Int} {i : Instr} {n : Nat} : decode view = .ok (i, n) ↔
    ∃ w rest modes, view = w :: rest ∧ kindOfWord w = some i.kind ∧ modesOf w.toNat i.kind.paramCount = some modes ∧
      i.kind.paramCount ≤ rest.length ∧ i.params = List.zipWith Param.mk rest modes ∧ n = i.length := by
  constructor
  · intro h
    unfold decode at h
    split at h
    · cases h
    · rename_i w rest
      split at h
      · cases h
      · rename_i kind hk
        split at h
        · cases h
        · rename_i modes hm
          split at h
          · cases h
          · rename_i hl
            split at h
            · cases h
            · rename_i i' hb
              cases h
              obtain ⟨rfl, hp⟩ := build_eq_some.1 hb
              exact ⟨w, rest, modes, rfl, hk, hm, by omega, hp, rfl⟩
  · rintro ⟨w, rest, modes, rfl, hk, hm, hl, hp, rfl⟩
    unfold decode
    simp only [hk, hm, if_neg (Nat.not_lt.2 hl)]
    rw [build_eq_some.2 ⟨rfl, hp⟩]
    rfl

/-- A decoded instruction's length is its kind's, and its Words are all in the view. -/
theorem decode_length {view : List Int} {i : Instr} {n : Nat} (h : decode view = .ok (i, n)) :
    n = i.length ∧ n ≤ view.length := by
  obtain ⟨w, rest, modes, rfl, -, -, hl, -, rfl⟩ := decode_eq_ok.1 h
  refine ⟨rfl, ?_⟩
  simp only [Instr.length, List.length_cons]
  omega

/-- Every raw value of a decoded instruction is a Word of the view. -/
theorem decode_raw_mem {view : List Int} {i : Instr} {n : Nat} (h : decode view = .ok (i, n)) :
    ∀ p ∈ i.params, p.raw ∈ view := by
  obtain ⟨w, rest, modes, rfl, -, -, -, hp, -⟩ := decode_eq_ok.1 h
  rw [hp]
  have : ∀ (rest : List Int) (modes : List Mode), ∀ p ∈ List.zipWith Param.mk rest modes, p.raw ∈ rest := by
    intro rest
    induction rest with
    | nil => intro modes p hp; simp at hp
    | cons v rest ih =>
      intro modes p hp
      cases modes with
      | nil => simp at hp
      | cons m modes =>
        simp only [List.zipWith_cons_cons, List.mem_cons] at hp
        rcases hp with rfl | hp
        · exact List.mem_cons_self
        · exact List.mem_cons_of_mem _ (ih modes p hp)
  exact fun p hp => List.mem_cons_of_mem _ (this rest modes p hp)

end Sys2Proof
end

