-- ==== Sys2Proof/Laws/State.lean ====
section
/-! SUPPORT. One lemma per field per update of the state, so that no later proof unfolds a record update. -/

namespace Sys2Proof.Machine

@[simp] theorem State.raise_cfg (s : State) (c : Cause) : (s.raise c).cfg = s.cfg := rfl
@[simp] theorem State.raise_pc (s : State) (c : Cause) : (s.raise c).pc = s.pc := rfl
@[simp] theorem State.raise_mem (s : State) (c : Cause) : (s.raise c).mem = s.mem := rfl
@[simp] theorem State.raise_status (s : State) (c : Cause) : (s.raise c).status = .faulted { pc := s.pc, cause := c } := rfl
@[simp] theorem State.raise_latch (s : State) (c : Cause) : (s.raise c).latch = none := rfl
@[simp] theorem State.raise_input (s : State) (c : Cause) : (s.raise c).input = s.input := rfl
@[simp] theorem State.raise_output (s : State) (c : Cause) : (s.raise c).output = s.output := rfl

@[simp] theorem State.advance_cfg (s : State) (len : Nat) : (s.advance len).cfg = s.cfg := rfl
@[simp] theorem State.advance_pc (s : State) (len : Nat) : (s.advance len).pc = s.pc + len := rfl
@[simp] theorem State.advance_mem (s : State) (len : Nat) : (s.advance len).mem = s.mem := rfl
@[simp] theorem State.advance_status (s : State) (len : Nat) : (s.advance len).status = s.status := rfl
@[simp] theorem State.advance_latch (s : State) (len : Nat) : (s.advance len).latch = none := rfl
@[simp] theorem State.advance_input (s : State) (len : Nat) : (s.advance len).input = s.input := rfl
@[simp] theorem State.advance_output (s : State) (len : Nat) : (s.advance len).output = s.output := rfl

@[simp] theorem State.jumpTo_cfg (s : State) (t : Nat) : (s.jumpTo t).cfg = s.cfg := rfl
@[simp] theorem State.jumpTo_pc (s : State) (t : Nat) : (s.jumpTo t).pc = t := rfl
@[simp] theorem State.jumpTo_mem (s : State) (t : Nat) : (s.jumpTo t).mem = s.mem := rfl
@[simp] theorem State.jumpTo_status (s : State) (t : Nat) : (s.jumpTo t).status = s.status := rfl
@[simp] theorem State.jumpTo_latch (s : State) (t : Nat) : (s.jumpTo t).latch = none := rfl
@[simp] theorem State.jumpTo_input (s : State) (t : Nat) : (s.jumpTo t).input = s.input := rfl
@[simp] theorem State.jumpTo_output (s : State) (t : Nat) : (s.jumpTo t).output = s.output := rfl

@[simp] theorem State.haltWith_cfg (s : State) (r : HaltReason) : (s.haltWith r).cfg = s.cfg := rfl
@[simp] theorem State.haltWith_pc (s : State) (r : HaltReason) : (s.haltWith r).pc = s.pc := rfl
@[simp] theorem State.haltWith_mem (s : State) (r : HaltReason) : (s.haltWith r).mem = s.mem := rfl
@[simp] theorem State.haltWith_status (s : State) (r : HaltReason) : (s.haltWith r).status = .halted r := rfl
@[simp] theorem State.haltWith_latch (s : State) (r : HaltReason) : (s.haltWith r).latch = none := rfl
@[simp] theorem State.haltWith_input (s : State) (r : HaltReason) : (s.haltWith r).input = s.input := rfl
@[simp] theorem State.haltWith_output (s : State) (r : HaltReason) : (s.haltWith r).output = s.output := rfl

@[simp] theorem State.withMem_cfg (s : State) (m : Memory) : (s.withMem m).cfg = s.cfg := rfl
@[simp] theorem State.withMem_pc (s : State) (m : Memory) : (s.withMem m).pc = s.pc := rfl
@[simp] theorem State.withMem_mem (s : State) (m : Memory) : (s.withMem m).mem = m := rfl
@[simp] theorem State.withMem_status (s : State) (m : Memory) : (s.withMem m).status = s.status := rfl
@[simp] theorem State.withMem_latch (s : State) (m : Memory) : (s.withMem m).latch = s.latch := rfl
@[simp] theorem State.withMem_input (s : State) (m : Memory) : (s.withMem m).input = s.input := rfl
@[simp] theorem State.withMem_output (s : State) (m : Memory) : (s.withMem m).output = s.output := rfl

@[simp] theorem State.latched_cfg (s : State) (i : Instr) (len : Nat) : (s.latched i len).cfg = s.cfg := rfl
@[simp] theorem State.latched_pc (s : State) (i : Instr) (len : Nat) : (s.latched i len).pc = s.pc := rfl
@[simp] theorem State.latched_mem (s : State) (i : Instr) (len : Nat) : (s.latched i len).mem = s.mem := rfl
@[simp] theorem State.latched_status (s : State) (i : Instr) (len : Nat) : (s.latched i len).status = s.status := rfl
@[simp] theorem State.latched_latch (s : State) (i : Instr) (len : Nat) : (s.latched i len).latch = some { instr := i, length := len } := rfl
@[simp] theorem State.latched_input (s : State) (i : Instr) (len : Nat) : (s.latched i len).input = s.input := rfl
@[simp] theorem State.latched_output (s : State) (i : Instr) (len : Nat) : (s.latched i len).output = s.output := rfl

/-- An instruction whose rule completes ends in the state the rule gives. -/
@[simp] theorem State.orRaise_ok (s t : State) : s.orRaise (.ok t) = t := rfl

/-- An instruction whose rule raises ends in the fault taken at the state it began in. -/
@[simp] theorem State.orRaise_error (s : State) (c : Cause) : s.orRaise (.error c) = s.raise c := rfl

@[simp] theorem Memory.poke_size (m : Memory) (a : Nat) (v : Int) : (m.poke a v).size = m.size := rfl

@[simp] theorem Memory.ofImage_size (image : List Int) : (Memory.ofImage image).size = image.length := rfl

@[simp] theorem State.hostFeedsConsole_input (e : ConsoleEvent) (s : State) :
    (s.hostFeedsConsole e).input = s.input.feed e := rfl

@[simp] theorem State.hostFeedsConsole_status (e : ConsoleEvent) (s : State) :
    (s.hostFeedsConsole e).status = s.status := rfl

end Sys2Proof.Machine
end

