-- ==== Sys2Proof/Laws/Memory.lean ====
section
/-! SUPPORT. The memory laws: every operation keeps the canonical form, a read after a write, and images. -/

namespace Sys2Proof.Machine

/-! ## Lists of cells -/

/-- A canonical list of cells reads as `unlisted` below its first address. -/
theorem readCell_of_lt {cs : List (Nat × Int)} : ∀ {lo hi a : Nat}, cellsWf lo hi cs = true → a < lo →
    readCell cs a = Memory.unlisted := by
  induction cs with
  | nil => intros; rfl
  | cons c rest ih =>
    obtain ⟨b, v⟩ := c
    intro lo hi a h ha
    simp only [cellsWf, Bool.and_eq_true, decide_eq_true_eq] at h
    have hne : a ≠ b := by omega
    simpa [readCell, hne] using ih h.2 (by omega)

/-- A write in range keeps the canonical form. -/
theorem cellsWf_writeCell {cs : List (Nat × Int)} (v : Int) : ∀ {lo hi a : Nat}, cellsWf lo hi cs = true → lo ≤ a → a < hi →
    cellsWf lo hi (writeCell cs a v) = true := by
  induction cs with
  | nil =>
    intro lo hi a _ h1 h2
    by_cases hv : v = Memory.unlisted <;> simp [writeCell, cellsWf, hv, h1, h2]
  | cons c rest ih =>
    obtain ⟨b, u⟩ := c
    intro lo hi a h h1 h2
    have hw := h
    simp only [cellsWf, Bool.and_eq_true, decide_eq_true_eq] at h
    obtain ⟨⟨⟨hb1, hb2⟩, hu⟩, hr⟩ := h
    have weaken : ∀ {k : Nat}, k ≤ b + 1 → cellsWf k hi rest = true := by
      intro k hk
      cases rest with
      | nil => rfl
      | cons d rest' =>
        simp only [cellsWf, Bool.and_eq_true, decide_eq_true_eq] at hr ⊢
        exact ⟨⟨⟨by omega, hr.1.1.2⟩, hr.1.2⟩, hr.2⟩
    unfold writeCell
    split
    · split
      · exact hw
      · rename_i hlt hv
        simp only [cellsWf, Bool.and_eq_true, decide_eq_true_eq]
        exact ⟨⟨⟨h1, h2⟩, hv⟩, ⟨⟨by omega, hb2⟩, hu⟩, hr⟩
    · split
      · split
        · exact weaken (by omega)
        · rename_i hv
          simp only [cellsWf, Bool.and_eq_true, decide_eq_true_eq]
          refine ⟨⟨⟨h1, h2⟩, hv⟩, ?_⟩
          rename_i hab
          subst hab
          exact hr
      · simp only [cellsWf, Bool.and_eq_true, decide_eq_true_eq]
        exact ⟨⟨⟨hb1, hb2⟩, hu⟩, ih hr (by omega) h2⟩

/-- A read of the address that was written gives the Word that was written. -/
theorem readCell_writeCell_same {cs : List (Nat × Int)} (v : Int) : ∀ {lo hi : Nat} (a : Nat), cellsWf lo hi cs = true →
    readCell (writeCell cs a v) a = v := by
  induction cs with
  | nil => intro lo hi a _; by_cases hv : v = Memory.unlisted <;> simp [writeCell, readCell, hv]
  | cons c rest ih =>
    obtain ⟨b, u⟩ := c
    intro lo hi a h
    have hw := h
    simp only [cellsWf, Bool.and_eq_true, decide_eq_true_eq] at h
    unfold writeCell
    split
    · rename_i hlt
      split
      · rename_i hv
        have hne : a ≠ b := by omega
        rw [hv]
        simpa [readCell, hne] using readCell_of_lt h.2 (by omega)
      · simp [readCell]
    · split
      · split
        · rename_i hab hv
          rw [hv]
          exact readCell_of_lt h.2 (by omega)
        · simp [readCell]
      · rename_i hab
        simpa [readCell, hab] using ih a h.2

/-- A write leaves every other address alone. -/
theorem readCell_writeCell_other {cs : List (Nat × Int)} (v : Int) : ∀ {lo hi a x : Nat}, cellsWf lo hi cs = true → x ≠ a →
    readCell (writeCell cs a v) x = readCell cs x := by
  induction cs with
  | nil =>
    intro lo hi a x _ hx
    by_cases hv : v = Memory.unlisted <;> simp [writeCell, readCell, hv, hx]
  | cons c rest ih =>
    obtain ⟨b, u⟩ := c
    intro lo hi a x h hx
    simp only [cellsWf, Bool.and_eq_true, decide_eq_true_eq] at h
    unfold writeCell
    split
    · split
      · rfl
      · simp [readCell, hx]
    · split
      · rename_i hab
        subst hab
        split
        · by_cases hxb : x < a
          · rw [readCell_of_lt h.2 (by omega)]
            simp only [readCell, hx, if_false]
            rw [readCell_of_lt h.2 (by omega)]
          · simp [readCell, hx]
        · simp [readCell, hx]
      · by_cases hxb : x = b
        · simp [readCell, hxb]
        · simpa [readCell, hxb] using ih h.2 hx

/-- Two canonical lists that read alike are the same list. -/
theorem cells_ext {cs : List (Nat × Int)} : ∀ {ds : List (Nat × Int)} {lo hi : Nat}, cellsWf lo hi cs = true →
    cellsWf lo hi ds = true → (∀ a, readCell cs a = readCell ds a) → cs = ds := by
  induction cs with
  | nil =>
    intro ds lo hi _ hd h
    cases ds with
    | nil => rfl
    | cons d ds' =>
      obtain ⟨b, u⟩ := d
      simp only [cellsWf, Bool.and_eq_true, decide_eq_true_eq] at hd
      exact absurd (by simpa [readCell] using (h b).symm) hd.1.2
  | cons c rest ih =>
    obtain ⟨b, u⟩ := c
    intro ds lo hi hc hd h
    have hc' := hc
    simp only [cellsWf, Bool.and_eq_true, decide_eq_true_eq] at hc
    cases ds with
    | nil => exact absurd (by simpa [readCell] using h b) hc.1.2
    | cons d ds' =>
      obtain ⟨e, w⟩ := d
      have hd' := hd
      simp only [cellsWf, Bool.and_eq_true, decide_eq_true_eq] at hd
      have hbe : b = e := by
        rcases Nat.lt_trichotomy b e with hlt | heq | hgt
        · have h1 := h b
          simp only [readCell, if_true, if_neg (show b ≠ e by omega)] at h1
          rw [readCell_of_lt hd.2 (by omega)] at h1
          exact absurd h1 hc.1.2
        · exact heq
        · have h1 := h e
          simp only [readCell, if_true, if_neg (show e ≠ b by omega)] at h1
          rw [readCell_of_lt hc.2 (by omega)] at h1
          exact absurd h1.symm hd.1.2
      subst hbe
      have huw : u = w := by simpa [readCell] using h b
      subst huw
      have : rest = ds' := ih hc.2 hd.2 fun a => by
        by_cases hab : a = b
        · subst hab
          rw [readCell_of_lt hc.2 (by omega), readCell_of_lt hd.2 (by omega)]
        · simpa [readCell, hab] using h a
      rw [this]

/-- A canonical list reads as `unlisted` at and above its bound. -/
theorem readCell_of_ge {cs : List (Nat × Int)} : ∀ {lo hi a : Nat}, cellsWf lo hi cs = true → hi ≤ a →
    readCell cs a = Memory.unlisted := by
  induction cs with
  | nil => intros; rfl
  | cons c rest ih =>
    obtain ⟨b, v⟩ := c
    intro lo hi a h ha
    simp only [cellsWf, Bool.and_eq_true, decide_eq_true_eq] at h
    have hne : a ≠ b := by omega
    simpa [readCell, hne] using ih h.2 ha

/-- A property that holds of `unlisted` and of every listed Word holds of every Word read. -/
theorem readCell_all {cs : List (Nat × Int)} {P : Int → Bool} (h0 : P Memory.unlisted = true)
    (h : cs.all (fun c => P c.2) = true) (a : Nat) : P (readCell cs a) = true := by
  induction cs with
  | nil => exact h0
  | cons c rest ih =>
    obtain ⟨b, v⟩ := c
    simp only [List.all_cons, Bool.and_eq_true] at h
    unfold readCell
    split
    · exact h.1
    · exact ih h.2

/-- A property of every listed Word is kept by a write of a Word that has it. -/
theorem writeCell_all {cs : List (Nat × Int)} {P : Int → Bool} {v : Int} (hv : P v = true)
    (h : cs.all (fun c => P c.2) = true) (a : Nat) : (writeCell cs a v).all (fun c => P c.2) = true := by
  induction cs with
  | nil => unfold writeCell; split <;> simp [hv]
  | cons c rest ih =>
    obtain ⟨b, u⟩ := c
    have h' := h
    simp only [List.all_cons, Bool.and_eq_true] at h'
    unfold writeCell
    split
    · split
      · exact h
      · simp only [List.all_cons, Bool.and_eq_true]; exact ⟨hv, h'⟩
    · split
      · split
        · exact h'.2
        · simp only [List.all_cons, Bool.and_eq_true]; exact ⟨hv, h'.2⟩
      · simp only [List.all_cons, Bool.and_eq_true]; exact ⟨h'.1, ih h'.2⟩

/-! ## Memories -/

/-- A write below `N` keeps the canonical form. -/
theorem Memory.wf_poke {m : Memory} (h : m.wf = true) {a : Nat} (ha : a < m.size) (v : Int) : (m.poke a v).wf = true :=
  cellsWf_writeCell v h (Nat.zero_le a) ha

/-- A read of the cell that was written. -/
theorem Memory.peek_poke_same {m : Memory} (h : m.wf = true) (a : Nat) (v : Int) : (m.poke a v).peek a = v :=
  readCell_writeCell_same v a h

/-- A write leaves every other cell alone. -/
theorem Memory.peek_poke_other {m : Memory} (h : m.wf = true) {a x : Nat} (hx : x ≠ a) (v : Int) :
    (m.poke a v).peek x = m.peek x :=
  readCell_writeCell_other v h hx

/-- Canonical memories of one length that read alike are equal. -/
theorem Memory.ext_of_peek {m m' : Memory} (h : m.wf = true) (h' : m'.wf = true) (hs : m.size = m'.size)
    (hp : ∀ a, a < m.size → m.peek a = m'.peek a) : m = m' := by
  obtain ⟨n, cs⟩ := m
  obtain ⟨n', ds⟩ := m'
  simp only at hs
  subst hs
  congr 1
  refine cells_ext h h' fun a => ?_
  by_cases ha : a < n
  · exact hp a ha
  · rw [readCell_of_ge h (Nat.le_of_not_lt ha), readCell_of_ge h' (Nat.le_of_not_lt ha)]

/-- The range check as inequalities. -/
theorem isWord_iff (width : Nat) (v : Int) : isWord width v = true ↔ wordMin width ≤ v ∧ v ≤ wordMax width := by
  simp [isWord]

/-- The Word 0 is in every range. -/
theorem isWord_zero (width : Nat) : isWord width 0 = true := by
  have h1 : 1 ≤ 2 ^ (width - 1) := Nat.one_le_two_pow
  rw [isWord_iff]
  unfold wordMin wordMax
  generalize 2 ^ (width - 1) = k at h1
  omega

/-- Every cell of a memory of Words reads as a Word. -/
theorem Memory.isWord_peek {m : Memory} {width : Nat} (h : m.holdsWords width = true) (a : Nat) :
    isWord width (m.peek a) = true :=
  readCell_all (P := isWord width) (isWord_zero width) h a

/-- A write of a Word keeps a memory of Words. -/
theorem Memory.holdsWords_poke {m : Memory} {width : Nat} (h : m.holdsWords width = true) {v : Int}
    (hv : isWord width v = true) (a : Nat) : (m.poke a v).holdsWords width = true :=
  writeCell_all (P := isWord width) hv h a

/-! ## Views -/

/-- How many Words a view has. -/
@[simp] theorem Memory.length_view (m : Memory) (pc n : Nat) : (m.view pc n).length = min n (m.size - pc) := by
  simp [Memory.view]

/-- The Words of a view are the cells from `pc` upward. -/
theorem Memory.getElem_view (m : Memory) (pc n i : Nat) (h : i < (m.view pc n).length) : (m.view pc n)[i] = m.peek (pc + i) := by
  simp [Memory.view]

/-- Below `N` a view of at least one Word begins with `M[pc]`. -/
theorem Memory.view_eq_cons (m : Memory) {pc n : Nat} (h : pc < m.size) :
    m.view pc (n + 1) = m.peek pc :: m.view (pc + 1) n := by
  have h1 : min (n + 1) (m.size - pc) = min n (m.size - (pc + 1)) + 1 := by omega
  simp only [Memory.view, h1, List.range_succ_eq_map, List.map_cons, List.map_map, Nat.add_zero]
  congr 1
  apply List.map_congr_left
  intro i _
  simp only [Function.comp]
  congr 1
  omega

/-! ## Images -/

/-- The cells of an image are canonical. -/
theorem cellsWf_imageCells (image : List Int) : ∀ a, cellsWf a (a + image.length) (imageCells a image) = true := by
  have weaken : ∀ {cs : List (Nat × Int)} {lo lo' hi : Nat}, lo' ≤ lo → cellsWf lo hi cs = true → cellsWf lo' hi cs = true := by
    intro cs lo lo' hi hl h
    cases cs with
    | nil => rfl
    | cons d rest =>
      simp only [cellsWf, Bool.and_eq_true, decide_eq_true_eq] at h ⊢
      exact ⟨⟨⟨by omega, h.1.1.2⟩, h.1.2⟩, h.2⟩
  induction image with
  | nil => intro a; rfl
  | cons v vs ih =>
    intro a
    have h := ih (a + 1)
    rw [show a + 1 + vs.length = a + (v :: vs).length by simp; omega] at h
    unfold imageCells
    split
    · exact weaken (by omega) h
    · rename_i hv
      simp only [cellsWf, Bool.and_eq_true, decide_eq_true_eq]
      exact ⟨⟨⟨le_refl a, by simp⟩, hv⟩, h⟩

/-- The cells of an image read as its Words. -/
theorem readCell_imageCells (image : List Int) : ∀ (a i : Nat) (h : i < image.length),
    readCell (imageCells a image) (a + i) = image[i] := by
  induction image with
  | nil => intro a i h; simp at h
  | cons v vs ih =>
    intro a i h
    cases i with
    | zero =>
      unfold imageCells
      split
      · rename_i hv
        simpa [hv] using readCell_of_lt (cellsWf_imageCells vs (a + 1)) (by omega)
      · simp [readCell]
    | succ j =>
      have hj := ih (a + 1) j (by simpa using h)
      rw [show a + 1 + j = a + (j + 1) by omega] at hj
      unfold imageCells
      split
      · simpa using hj
      · simpa [readCell] using hj

/-- An image's memory is canonical. -/
theorem Memory.wf_ofImage (image : List Int) : (Memory.ofImage image).wf = true := by
  simpa [Memory.wf, Memory.ofImage] using cellsWf_imageCells image 0

/-- Word `i` of the image is `M[i]`. -/
theorem Memory.peek_ofImage (image : List Int) (i : Nat) (h : i < image.length) : (Memory.ofImage image).peek i = image[i] := by
  simpa [Memory.peek, Memory.ofImage] using readCell_imageCells image 0 i h

/-- An image of Words makes a memory of Words. -/
theorem Memory.holdsWords_ofImage {image : List Int} {width : Nat} (h : image.all (isWord width) = true) :
    (Memory.ofImage image).holdsWords width = true := by
  have : ∀ (vs : List Int) (a : Nat), vs.all (isWord width) = true →
      (imageCells a vs).all (fun c => isWord width c.2) = true := by
    intro vs
    induction vs with
    | nil => intros; rfl
    | cons v vs ih =>
      intro a hv
      simp only [List.all_cons, Bool.and_eq_true] at hv
      unfold imageCells
      split
      · exact ih _ hv.2
      · simp only [List.all_cons, Bool.and_eq_true]; exact ⟨hv.1, ih _ hv.2⟩
  exact this image 0 h

/-- What the caller reads back of an image no instruction has changed is the image. -/
theorem Memory.contents_ofImage (image : List Int) : (Memory.ofImage image).contents = image := by
  apply List.ext_getElem
  · simp [Memory.contents]
  · intro i h1 h2
    simpa [Memory.contents] using Memory.peek_ofImage image i h2

/-- The empty memory, which `State.reset` holds, is canonical. -/
theorem State.reset_mem_wf : State.reset.mem.wf = true := rfl

/-- Storing Words from an address upward keeps the canonical form. -/
theorem Memory.wf_withWords (ws : List Int) : ∀ {a : Nat} {m : Memory}, m.wf = true → (m.withWords ws a).wf = true := by
  have grow : ∀ {cs : List (Nat × Int)} {lo hi hi' : Nat}, hi ≤ hi' → cellsWf lo hi cs = true → cellsWf lo hi' cs = true := by
    intro cs
    induction cs with
    | nil => intros; rfl
    | cons d rest ih =>
      intro lo hi hi' hl h
      simp only [cellsWf, Bool.and_eq_true, decide_eq_true_eq] at h ⊢
      exact ⟨⟨⟨h.1.1.1, by omega⟩, h.1.2⟩, ih hl h.2⟩
  induction ws with
  | nil => intro a m h; exact h
  | cons w ws ih =>
    intro a m h
    refine ih (Memory.wf_poke ?_ ?_ w)
    · exact grow (Nat.le_max_left _ _) h
    · exact Nat.lt_of_lt_of_le (Nat.lt_succ_self a) (Nat.le_max_right _ _)

end Sys2Proof.Machine
end

