-- ==== Sys2Proof/Laws/Ops.lean ====
section
/-! SUPPORT. One lemma per shared operation that says once everything it can do. -/

namespace Sys2Proof.Machine

/-! ## Bounds and access -/

/-- The bounds check as inequalities. -/
theorem Memory.inBounds_iff (m : Memory) (a : Int) : m.inBounds a = true ↔ 0 ≤ a ∧ a < (m.size : Int) := by
  simp [Memory.inBounds]

/-- What `MemRead` answers. -/
theorem memRead_eq_ok {m : Memory} {a : Int} {v : Int} :
    memRead m a = .ok v ↔ m.inBounds a = true ∧ m.peek a.toNat = v := by
  unfold memRead; split <;> simp_all

/-- When `MemRead` raises, and what. -/
theorem memRead_eq_error {m : Memory} {a : Int} {c : Cause} :
    memRead m a = .error c ↔ m.inBounds a = false ∧ c = .outOfBounds a := by
  unfold memRead
  split
  · rename_i h; simp [h]
  · rename_i h; simp [h, eq_comm (a := c)]

/-- What `MemWrite` answers. -/
theorem memWrite_eq_ok {m m' : Memory} {a : Int} {v : Int} :
    memWrite m a v = .ok m' ↔ m.inBounds a = true ∧ m' = m.poke a.toNat v := by
  unfold memWrite
  split
  · rename_i h; simp [h, eq_comm (a := m')]
  · rename_i h; simp [h]

/-- When `MemWrite` raises, and what. -/
theorem memWrite_eq_error {m : Memory} {a : Int} {v : Int} {c : Cause} :
    memWrite m a v = .error c ↔ m.inBounds a = false ∧ c = .outOfBounds a := by
  unfold memWrite
  split
  · rename_i h; simp [h]
  · rename_i h; simp [h, eq_comm (a := c)]

/-! ## Parameters -/

/-- What `ReadVal` answers. -/
theorem readVal_eq_ok {s : State} {p : Param} {v : Int} : readVal s p = .ok v ↔
    (p.mode = .immediate ∧ v = p.raw) ∨ (p.mode = .position ∧ s.mem.inBounds p.raw = true ∧ v = s.mem.peek p.raw.toNat) := by
  obtain ⟨raw, mode⟩ := p
  cases mode <;> simp [readVal, memRead_eq_ok, eq_comm (a := v)]

/-- When `ReadVal` raises, and what. -/
theorem readVal_eq_error {s : State} {p : Param} {c : Cause} : readVal s p = .error c ↔
    p.mode = .position ∧ s.mem.inBounds p.raw = false ∧ c = .outOfBounds p.raw := by
  obtain ⟨raw, mode⟩ := p
  cases mode <;> simp [readVal, memRead_eq_error]

/-- `ReadVal` reads the memory and nothing else of the state. -/
theorem readVal_congr {s t : State} (h : t.mem = s.mem) (p : Param) : readVal t p = readVal s p := by
  simp [readVal, h]

/-- What `WriteAddr` answers. -/
theorem writeAddr_eq_ok {s : State} {p : Param} {d : Nat} : writeAddr s p = .ok d ↔
    s.mem.inBounds p.raw = true ∧ d = p.raw.toNat := by
  unfold writeAddr
  split
  · rename_i h; simp [h, eq_comm (a := d)]
  · rename_i h; simp [h]

/-- When `WriteAddr` raises, and what. -/
theorem writeAddr_eq_error {s : State} {p : Param} {c : Cause} : writeAddr s p = .error c ↔
    s.mem.inBounds p.raw = false ∧ c = .outOfBounds p.raw := by
  unfold writeAddr
  split
  · rename_i h; simp [h]
  · rename_i h; simp [h, eq_comm (a := c)]

/-- A destination in range is in range as a Nat. -/
theorem Memory.inBounds_toNat {m : Memory} {a : Int} (h : m.inBounds a = true) :
    m.inBounds (a.toNat : Int) = true ∧ a.toNat < m.size ∧ ((a.toNat : Nat) : Int) = a := by
  rw [Memory.inBounds_iff] at *
  omega

/-- What the check of a target answers. -/
theorem checkTarget_eq_ok {t : Int} {n : Nat} : checkTarget t = .ok n ↔ 0 ≤ t ∧ n = t.toNat := by
  unfold checkTarget
  split
  · rename_i h; simp [Int.not_le.2 h]
  · rename_i h; simp [Int.not_lt.1 h, eq_comm (a := n)]

/-- When the check of a target raises, and what. -/
theorem checkTarget_eq_error {t : Int} {c : Cause} : checkTarget t = .error c ↔ t < 0 ∧ c = .outOfBounds t := by
  unfold checkTarget
  split
  · rename_i h; simp [h, eq_comm (a := c)]
  · rename_i h; simp [h]

/-- What the range check answers. -/
theorem checkRange_eq_ok {width : Nat} {r v : Int} : checkRange width r = .ok v ↔ isWord width r = true ∧ v = r := by
  unfold checkRange
  split
  · rename_i h; simp [h, eq_comm (a := v)]
  · rename_i h; simp [h]

/-- When the range check raises, and what. -/
theorem checkRange_eq_error {width : Nat} {r : Int} {c : Cause} :
    checkRange width r = .error c ↔ isWord width r = false ∧ c = .overflow r := by
  unfold checkRange
  split
  · rename_i h; simp [h]
  · rename_i h; simp [h, eq_comm (a := c)]

/-! ## Sequencing -/

/-- A step of an instruction's rule that succeeds. -/
theorem bind_eq_ok {ε α β : Type} {x : Except ε α} {f : α → Except ε β} {b : β} :
    (x >>= f) = .ok b ↔ ∃ a, x = .ok a ∧ f a = .ok b := by
  cases x <;> simp [bind, Except.bind]

/-- A step of an instruction's rule that raises. -/
theorem bind_eq_error {ε α β : Type} {x : Except ε α} {f : α → Except ε β} {c : ε} :
    (x >>= f) = .error c ↔ x = .error c ∨ ∃ a, x = .ok a ∧ f a = .error c := by
  cases x <;> simp [bind, Except.bind]

/-! ## The datapaths -/

/-- Everything the ALU datapath can complete with. -/
theorem alu_eq_ok {f : Int → Int → Int} {p1 p2 p3 : Param} {s t : State} : alu f p1 p2 p3 s = .ok t ↔
    ∃ a b, readVal s p1 = .ok a ∧ readVal s p2 = .ok b ∧ isWord s.cfg.width (f a b) = true ∧
      s.mem.inBounds p3.raw = true ∧ t = (s.withMem (s.mem.poke p3.raw.toNat (f a b))).advance 4 := by
  simp only [alu, bind_eq_ok, checkRange_eq_ok, writeAddr_eq_ok, memWrite_eq_ok, pure, Except.pure, Except.ok.injEq]
  constructor
  · rintro ⟨a, ha, b, hb, r, ⟨hr, rfl⟩, d, ⟨hd, rfl⟩, m, ⟨-, rfl⟩, rfl⟩
    exact ⟨a, b, ha, hb, hr, hd, rfl⟩
  · rintro ⟨a, b, ha, hb, hr, hd, rfl⟩
    exact ⟨a, ha, b, hb, _, ⟨hr, rfl⟩, _, ⟨hd, rfl⟩, _, ⟨(Memory.inBounds_toNat hd).1, rfl⟩, rfl⟩

/-- Everything the ALU datapath can raise, in the order of its checks. -/
theorem alu_eq_error {f : Int → Int → Int} {p1 p2 p3 : Param} {s : State} {c : Cause} : alu f p1 p2 p3 s = .error c ↔
    readVal s p1 = .error c ∨
    ∃ a, readVal s p1 = .ok a ∧ (readVal s p2 = .error c ∨
      ∃ b, readVal s p2 = .ok b ∧ ((isWord s.cfg.width (f a b) = false ∧ c = .overflow (f a b)) ∨
        (isWord s.cfg.width (f a b) = true ∧ s.mem.inBounds p3.raw = false ∧ c = .outOfBounds p3.raw))) := by
  simp only [alu, bind_eq_error, checkRange_eq_ok, checkRange_eq_error, writeAddr_eq_ok, writeAddr_eq_error,
    memWrite_eq_error, pure, Except.pure, reduceCtorEq, and_false, exists_false, or_false]
  constructor
  · rintro (h | ⟨a, ha, h | ⟨b, hb, h | ⟨r, ⟨hr, rfl⟩, h | ⟨d, ⟨hd, rfl⟩, hm, -⟩⟩⟩⟩)
    · exact .inl h
    · exact .inr ⟨a, ha, .inl h⟩
    · exact .inr ⟨a, ha, .inr ⟨b, hb, .inl h⟩⟩
    · exact .inr ⟨a, ha, .inr ⟨b, hb, .inr ⟨hr, h⟩⟩⟩
    · rw [(Memory.inBounds_toNat hd).1] at hm; exact absurd hm (by simp)
  · rintro (h | ⟨a, ha, h | ⟨b, hb, h | ⟨hr, h⟩⟩⟩)
    · exact .inl h
    · exact .inr ⟨a, ha, .inl h⟩
    · exact .inr ⟨a, ha, .inr ⟨b, hb, .inl h⟩⟩
    · exact .inr ⟨a, ha, .inr ⟨b, hb, .inr ⟨_, ⟨hr, rfl⟩, .inl h⟩⟩⟩

/-- Everything the jump datapath can complete with, under both values of `jump_target_eval`. -/
theorem jump_eq_ok {test : Int → Bool} {p1 p2 : Param} {s t : State} : jump test p1 p2 s = .ok t ↔
    ∃ c, readVal s p1 = .ok c ∧
      ((test c = true ∧ ∃ x, readVal s p2 = .ok x ∧ 0 ≤ x ∧ t = s.jumpTo x.toNat) ∨
       (test c = false ∧ t = s.advance 3 ∧ (s.cfg.jumpTargetEval = .eager → ∃ x, readVal s p2 = .ok x))) := by
  simp only [jump, bind_eq_ok]
  refine exists_congr fun c => and_congr_right fun _ => ?_
  cases s.cfg.jumpTargetEval <;> cases test c <;>
    simp only [jumpTarget, bind_eq_ok, checkTarget_eq_ok, pure, Except.pure, Except.ok.injEq, if_true, if_false,
      Bool.false_eq_true, reduceCtorEq, false_and, true_and, or_false, false_or, false_implies, true_implies, and_true]
  · exact eq_comm
  · constructor
    · rintro ⟨n, ⟨x, hx, h0, rfl⟩, rfl⟩; exact ⟨x, hx, h0, rfl⟩
    · rintro ⟨x, hx, h0, rfl⟩; exact ⟨_, ⟨x, hx, h0, rfl⟩, rfl⟩
  · constructor
    · rintro ⟨x, hx, rfl⟩; exact ⟨rfl, x, hx⟩
    · rintro ⟨rfl, x, hx⟩; exact ⟨x, hx, rfl⟩
  · constructor
    · rintro ⟨x, hx, n, ⟨h0, rfl⟩, rfl⟩; exact ⟨x, hx, h0, rfl⟩
    · rintro ⟨x, hx, h0, rfl⟩; exact ⟨x, hx, _, ⟨h0, rfl⟩, rfl⟩

/-- Everything the jump datapath can raise. -/
theorem jump_eq_error {test : Int → Bool} {p1 p2 : Param} {s : State} {e : Cause} : jump test p1 p2 s = .error e ↔
    readVal s p1 = .error e ∨
    ∃ c, readVal s p1 = .ok c ∧
      ((test c = true ∧ (readVal s p2 = .error e ∨ ∃ x, readVal s p2 = .ok x ∧ x < 0 ∧ e = .outOfBounds x)) ∨
       (test c = false ∧ s.cfg.jumpTargetEval = .eager ∧ readVal s p2 = .error e)) := by
  simp only [jump, bind_eq_error]
  refine or_congr_right (exists_congr fun c => and_congr_right fun _ => ?_)
  cases s.cfg.jumpTargetEval <;> cases test c <;>
    simp [jumpTarget, bind_eq_error, checkTarget_eq_error, pure, Except.pure]

/-- Everything the store of an IN can complete with. -/
theorem storeInput_eq_ok {d : Param} {v : Int} {s t : State} : storeInput d v s = .ok t ↔
    s.mem.inBounds d.raw = true ∧
      t = { (s.withMem (s.mem.poke d.raw.toNat v)).advance 2 with status := .running } := by
  simp only [storeInput, bind_eq_ok, writeAddr_eq_ok, memWrite_eq_ok, pure, Except.pure, Except.ok.injEq]
  constructor
  · rintro ⟨a, ⟨hd, rfl⟩, m, ⟨-, rfl⟩, rfl⟩
    exact ⟨hd, rfl⟩
  · rintro ⟨hd, rfl⟩
    exact ⟨_, ⟨hd, rfl⟩, _, ⟨(Memory.inBounds_toNat hd).1, rfl⟩, rfl⟩

/-- Everything the store of an IN can raise. -/
theorem storeInput_eq_error {d : Param} {v : Int} {s : State} {c : Cause} : storeInput d v s = .error c ↔
    s.mem.inBounds d.raw = false ∧ c = .outOfBounds d.raw := by
  simp only [storeInput, bind_eq_error, writeAddr_eq_ok, writeAddr_eq_error, memWrite_eq_error, pure, Except.pure,
    reduceCtorEq, and_false, exists_false, or_false]
  constructor
  · rintro (h | ⟨a, ⟨hd, rfl⟩, hm, -⟩)
    · exact h
    · rw [(Memory.inBounds_toNat hd).1] at hm; exact absurd hm (by simp)
  · exact .inl

/-- Everything the completion of an IN can do, by the channel's answer. -/
theorem completeInput_cases (d : Param) (s : State) :
    (s.input.take s.cfg.width = none ∧ completeInput d s = s) ∨
    (∃ v ch, s.input.take s.cfg.width = some (.value v, ch) ∧ s.mem.inBounds d.raw = true ∧
      completeInput d s =
        { s with pc := s.pc + 2, mem := s.mem.poke d.raw.toNat v, status := .running, latch := none, input := ch }) ∨
    (∃ v ch, s.input.take s.cfg.width = some (.value v, ch) ∧ s.mem.inBounds d.raw = false ∧
      completeInput d s = State.raise (.outOfBounds d.raw) { s with input := ch }) ∨
    (∃ ch, s.input.take s.cfg.width = some (.exhausted, ch) ∧
      completeInput d s = State.raise .inputExhausted { s with input := ch }) ∨
    (∃ ch, s.input.take s.cfg.width = some (.ioError, ch) ∧
      completeInput d s = State.raise .ioError { s with input := ch }) := by
  unfold completeInput
  split
  · rename_i h; exact .inl ⟨h, rfl⟩
  · rename_i v ch h
    cases hb : s.mem.inBounds d.raw with
    | true =>
      refine .inr (.inl ⟨v, ch, h, rfl, ?_⟩)
      have hk : storeInput d v { s with input := ch } =
          .ok { s with pc := s.pc + 2, mem := s.mem.poke d.raw.toNat v, status := .running, latch := none, input := ch } :=
        storeInput_eq_ok.2 ⟨hb, rfl⟩
      rw [hk, State.orRaise_ok]
    | false =>
      refine .inr (.inr (.inl ⟨v, ch, h, rfl, ?_⟩))
      have hk : storeInput d v { s with input := ch } = .error (.outOfBounds d.raw) := storeInput_eq_error.2 ⟨hb, rfl⟩
      rw [hk, State.orRaise_error]
  · rename_i ch h; exact .inr (.inr (.inr (.inl ⟨ch, h, rfl⟩)))
  · rename_i ch h; exact .inr (.inr (.inr (.inr ⟨ch, h, rfl⟩)))

/-- Everything OUT can do once its source is read, by the channel's answer. -/
theorem putValue_cases (v : Int) (s : State) :
    (∃ ch, s.output.put v = (.ok, ch) ∧ putValue v s = State.advance 2 { s with output := ch }) ∨
    (∃ ch, s.output.put v = (.ioError, ch) ∧ putValue v s = State.raise .ioError { s with output := ch }) := by
  unfold putValue
  split
  · rename_i ch h; exact .inl ⟨ch, h, rfl⟩
  · rename_i ch h; exact .inr ⟨ch, h, rfl⟩

/-- Everything OUT can end in. -/
theorem execOutput_cases (p : Param) (s : State) :
    (∃ c, readVal s p = .error c ∧ execOutput p s = .next (s.raise c)) ∨
    (∃ v ch, readVal s p = .ok v ∧ s.output.put v = (.ok, ch) ∧
      execOutput p s = .next (State.advance 2 { s with output := ch })) ∨
    (∃ v ch, readVal s p = .ok v ∧ s.output.put v = (.ioError, ch) ∧
      execOutput p s = .next (State.raise .ioError { s with output := ch })) := by
  unfold execOutput
  cases h : readVal s p with
  | error c => exact .inl ⟨c, rfl, rfl⟩
  | ok v =>
    rcases putValue_cases v s with ⟨ch, h1, h2⟩ | ⟨ch, h1, h2⟩
    · exact .inr (.inl ⟨v, ch, rfl, h1, by rw [← h2]; rfl⟩)
    · exact .inr (.inr ⟨v, ch, rfl, h1, by rw [← h2]; rfl⟩)

/-- What an instruction's rule gives, or the fault it raised. -/
theorem orRaise_cases (s : State) (r : Except Cause State) :
    (∃ t, r = .ok t ∧ s.orRaise r = t) ∨ (∃ c, r = .error c ∧ s.orRaise r = s.raise c) := by
  cases r with
  | ok t => exact .inl ⟨t, rfl, rfl⟩
  | error c => exact .inr ⟨c, rfl, rfl⟩

/-- Everything ADD, MUL, LT and EQ can end in. -/
theorem alu_answers (f : Int → Int → Int) (p1 p2 p3 : Param) (s : State) :
    (∃ c, s.orRaise (alu f p1 p2 p3 s) = s.raise c) ∨
    ∃ a b, readVal s p1 = .ok a ∧ readVal s p2 = .ok b ∧ isWord s.cfg.width (f a b) = true ∧ s.mem.inBounds p3.raw = true ∧
      s.orRaise (alu f p1 p2 p3 s) = (s.withMem (s.mem.poke p3.raw.toNat (f a b))).advance 4 := by
  rcases orRaise_cases s (alu f p1 p2 p3 s) with ⟨t, h, h'⟩ | ⟨c, -, h'⟩
  · obtain ⟨a, b, ha, hb, hr, hd, rfl⟩ := alu_eq_ok.1 h
    exact .inr ⟨a, b, ha, hb, hr, hd, h'⟩
  · exact .inl ⟨c, h'⟩

/-- Everything JT and JF can end in. -/
theorem jump_answers (test : Int → Bool) (p1 p2 : Param) (s : State) :
    (∃ c, s.orRaise (jump test p1 p2 s) = s.raise c) ∨ s.orRaise (jump test p1 p2 s) = s.advance 3 ∨
    ∃ x, readVal s p2 = .ok x ∧ 0 ≤ x ∧ s.orRaise (jump test p1 p2 s) = s.jumpTo x.toNat := by
  rcases orRaise_cases s (jump test p1 p2 s) with ⟨t, h, h'⟩ | ⟨c, -, h'⟩
  · obtain ⟨c, -, ⟨-, x, hx, h0, rfl⟩ | ⟨-, rfl, -⟩⟩ := jump_eq_ok.1 h
    · exact .inr (.inr ⟨x, hx, h0, h'⟩)
    · exact .inr (.inl h')
  · exact .inl ⟨c, h'⟩

/-! ## Channels -/

/-- A `Take` of a channel of Words answers a Word and leaves a channel of Words. -/
theorem InputChannel.take_holdsWords {width : Nat} {ch ch' : InputChannel} {ans : TakeAnswer}
    (h : ch.holdsWords width = true) (ht : ch.take width = some (ans, ch')) :
    ch'.holdsWords width = true ∧ ∀ v, ans = .value v → isWord width v = true := by
  have hline : ∀ (line : List Char) (v : Int), answerOfLine width line = .value v → isWord width v = true := by
    intro line v hv
    unfold answerOfLine at hv
    split at hv
    · cases hv
    · rename_i w hw
      cases hv
      unfold parseInteger at hw
      split at hw
      · cases hw
      · split at hw
        · cases hw; assumption
        · cases hw
  cases ch with
  | scripted queue =>
    cases queue with
    | nil => cases ht; exact ⟨rfl, by simp⟩
    | cons v queue =>
      cases ht
      simp only [InputChannel.holdsWords, List.all_cons, Bool.and_eq_true] at h
      exact ⟨h.2, by rintro w hw; cases hw; exact h.1⟩
  | scriptedText text =>
    simp only [InputChannel.take] at ht
    split at ht
    · cases ht; exact ⟨rfl, by simp⟩
    · cases ht; exact ⟨rfl, hline _⟩
  | interactive prompts pending =>
    cases pending with
    | nil => cases ht
    | cons event pending =>
      cases ht
      refine ⟨rfl, ?_⟩
      cases event with
      | line text => exact hline _
      | endOfInput => intro v hv; cases hv
      | failure => intro v hv; cases hv

/-- A `Put` of a Word leaves a channel of Words. -/
theorem OutputChannel.put_holdsWords {width : Nat} {ch : OutputChannel} {v : Int}
    (h : ch.holdsWords width = true) (hv : isWord width v = true) : (ch.put v).2.holdsWords width = true := by
  cases ch with
  | collecting values => simpa [OutputChannel.put, OutputChannel.holdsWords, hv] using h
  | interactive lines puts answers =>
    simp only [OutputChannel.put]
    split <;> rfl

/-- Everything a `Put` can answer, and what it leaves. -/
theorem OutputChannel.put_cases (v : Int) (ch : OutputChannel) :
    (∃ values, ch = .collecting values ∧ ch.put v = (.ok, .collecting (values ++ [v]))) ∨
    (∃ lines puts answers, ch = .interactive lines puts answers ∧
      (ch.put v = (.ok, .interactive (lines ++ [lineOfWord v]) (puts + 1) answers.tail) ∨
        ch.put v = (.ioError, .interactive lines (puts + 1) answers.tail))) := by
  cases ch with
  | collecting values => exact .inl ⟨values, rfl, rfl⟩
  | interactive lines puts answers =>
    refine .inr ⟨lines, puts, answers, rfl, ?_⟩
    cases h : nextPutAnswer puts answers with
    | ok => exact .inl (by simp [OutputChannel.put, h])
    | ioError => exact .inr (by simp [OutputChannel.put, h])

/-- Issuing a `Take` lists no value. -/
theorem InputChannel.prompted_holdsWords {width : Nat} {ch : InputChannel} :
    ch.prompted.holdsWords width = ch.holdsWords width := by
  cases ch <;> rfl

/-- A prompt does not change the answer. -/
theorem InputChannel.prompted_scripted (queue : List Int) :
    (InputChannel.scripted queue).prompted = .scripted queue := rfl

end Sys2Proof.Machine
end

