-- ==== Sys2Proof/Laws/PerInstr.lean ====
section
/-! SUPPORT. Statements about every instruction as syntax, one lemma per constructor. -/

namespace Sys2Proof.Laws.EncodedLength

/-- The Words of an instruction are as many as its length says, at most four, and the first is not negative (30_encoding.md
R70, R72, R86). -/
def Statement (i : Instr) : Prop := (encode i).length = i.length ∧ i.length ≤ 4 ∧ 0 ≤ i.word

/-- No kind has more than three parameters (00_scope.md R6). -/
theorem paramCount_le (k : Kind) : k.paramCount ≤ 3 := by cases k <;> decide

/-- What the statement says does not depend on the operands but through the mode digits, which are natural numbers. -/
theorem of_params (i : Instr) (h : i.params.length = i.kind.paramCount) : Statement i := by
  have h3 := paramCount_le i.kind
  refine ⟨?_, ?_, Int.natCast_nonneg _⟩
  · simp only [encode, List.length_cons, List.length_map, h, Instr.length]; omega
  · simp only [Instr.length]; omega

theorem add (a b dst : Param) : Statement (.add a b dst) := of_params _ rfl
theorem multiply (a b dst : Param) : Statement (.multiply a b dst) := of_params _ rfl
theorem input (dst : Param) : Statement (.input dst) := of_params _ rfl
theorem output (src : Param) : Statement (.output src) := of_params _ rfl
theorem jumpIfTrue (cond target : Param) : Statement (.jumpIfTrue cond target) := of_params _ rfl
theorem jumpIfFalse (cond target : Param) : Statement (.jumpIfFalse cond target) := of_params _ rfl
theorem lessThan (a b dst : Param) : Statement (.lessThan a b dst) := of_params _ rfl
theorem equals (a b dst : Param) : Statement (.equals a b dst) := of_params _ rfl
theorem halt : Statement .halt := of_params _ rfl

end Sys2Proof.Laws.EncodedLength
end

