-- ==== Sys2Proof/Laws/Pipeline.lean ====
section
/-! SUPPORT. The laws of the pipeline block: the orderings, the stages of an ordering, and the maximum (45_pipeline.md). -/

namespace Sys2Proof.Machine

/-- The insertions of `x` are the lists with `x` put at some place. -/
theorem mem_insertions {x : Nat} {l r : List Nat} : r ∈ insertions x l ↔ ∃ a b, l = a ++ b ∧ r = a ++ x :: b := by
  induction l generalizing r with
  | nil =>
    simp only [insertions, List.mem_singleton]
    constructor
    · rintro rfl; exact ⟨[], [], rfl, rfl⟩
    · rintro ⟨a, b, h, rfl⟩
      obtain ⟨rfl, rfl⟩ := List.append_eq_nil_iff.1 h.symm
      rfl
  | cons y ys ih =>
    simp only [insertions, List.mem_cons, List.mem_map]
    constructor
    · rintro (rfl | ⟨z, hz, rfl⟩)
      · exact ⟨[], y :: ys, rfl, rfl⟩
      · obtain ⟨a, b, rfl, rfl⟩ := ih.1 hz
        exact ⟨y :: a, b, rfl, rfl⟩
    · rintro ⟨a, b, h, rfl⟩
      cases a with
      | nil => left; rw [List.nil_append] at h; rw [← h]; rfl
      | cons z a =>
        simp only [List.cons_append, List.cons.injEq] at h
        obtain ⟨rfl, rfl⟩ := h
        exact .inr ⟨a ++ x :: b, ih.2 ⟨a, b, rfl, rfl⟩, rfl⟩

/-- There is one insertion for each place. -/
theorem length_insertions (x : Nat) (l : List Nat) : (insertions x l).length = l.length + 1 := by
  induction l with
  | nil => rfl
  | cons y ys ih => simp [insertions, ih]

/-- The insertions of a new element are distinct. -/
theorem nodup_insertions {x : Nat} {l : List Nat} (h : x ∉ l) : (insertions x l).Nodup := by
  induction l with
  | nil => simp [insertions]
  | cons y ys ih =>
    simp only [List.mem_cons, not_or] at h
    simp only [insertions, List.nodup_cons, List.mem_map, not_exists, not_and]
    refine ⟨?_, (ih h.2).map fun a b e => by injection e⟩
    rintro z - e
    injection e with e _
    exact h.1 e.symm

/-- The stages of two lists of phases one after the other. -/
theorem runStages_append (fuel : Nat) (cfg : Config) (program : List Int) (phases later : List Nat) : ∀ (i : Nat) (s : Int),
    runStages fuel cfg program i s (phases ++ later) =
      match runStages fuel cfg program i s phases with
      | .score v => runStages fuel cfg program (i + phases.length) v later
      | .failed j k => .failed j k
      | .notEnded j => .notEnded j := by
  induction phases with
  | nil => intro i s; simp [runStages]
  | cons p ps ih =>
    intro i s
    simp only [List.cons_append, runStages]
    cases runStage fuel cfg program p s with
    | output v => simp only [ih, List.length_cons, show i + 1 + ps.length = i + (ps.length + 1) by omega]
    | failed k => rfl
    | notEnded => rfl

/-- A list without scores has no maximum. -/
theorem maxScore_eq_none {l : List Int} : maxScore l = none ↔ l = [] := by
  cases l with
  | nil => simp [maxScore]
  | cons s l => unfold maxScore; split <;> simp

/-- What the maximum is. -/
theorem maxScore_eq_some {l : List Int} {m : Int} : maxScore l = some m ↔ m ∈ l ∧ ∀ s ∈ l, s ≤ m := by
  induction l generalizing m with
  | nil => simp [maxScore]
  | cons s l ih =>
    unfold maxScore
    cases h : maxScore l with
    | none =>
      obtain rfl := maxScore_eq_none.1 h
      simp only [Option.some.injEq, List.mem_singleton, forall_eq]
      exact ⟨fun e => ⟨e.symm, e.le⟩, fun e => e.1.symm⟩
    | some x =>
      obtain ⟨hx, hx'⟩ := ih.1 h
      simp only [Option.some.injEq, List.mem_cons, forall_eq_or_imp]
      constructor
      · rintro rfl
        split
        · exact ⟨.inl rfl, le_refl _, fun z hz => by have := hx' z hz; omega⟩
        · exact ⟨.inr hx, by omega, hx'⟩
      · rintro ⟨rfl | hm, h1, h2⟩
        · have := h2 x hx; split <;> omega
        · have := h2 x hx; have := hx' m hm; split <;> omega

end Sys2Proof.Machine
end

