-- ==== Sys2Proof/Laws/Step.lean ====
section
/-! SUPPORT. What one step can do, said once (40_engine.md R100). -/

namespace Sys2Proof.Machine

/-- Every instruction answers a next state: completing, waiting, halting or taking a fault. -/
theorem exec_isNext (i : Instr) (s : State) : ∃ t, exec i s = .next t := by
  cases i with
  | add a b dst => exact ⟨_, rfl⟩
  | multiply a b dst => exact ⟨_, rfl⟩
  | input dst => exact ⟨_, rfl⟩
  | output src => exact ⟨_, rfl⟩
  | jumpIfTrue cond target => exact ⟨_, rfl⟩
  | jumpIfFalse cond target => exact ⟨_, rfl⟩
  | lessThan a b dst => exact ⟨_, rfl⟩
  | equals a b dst => exact ⟨_, rfl⟩
  | halt => exact ⟨_, rfl⟩

/-- The datapath each kind runs (40_engine.md R103). -/
theorem exec_shape {i : Instr} {s t : State} (h : exec i s = .next t) :
    (∃ p1 p2 p3 f, (i = .add p1 p2 p3 ∨ i = .multiply p1 p2 p3 ∨ i = .lessThan p1 p2 p3 ∨ i = .equals p1 p2 p3) ∧
      t = s.orRaise (alu f p1 p2 p3 s)) ∨
    (∃ p1 p2 test, (i = .jumpIfTrue p1 p2 ∨ i = .jumpIfFalse p1 p2) ∧ t = s.orRaise (jump test p1 p2 s)) ∨
    (∃ p, i = .input p ∧ t = { s with status := .awaitInput p, input := s.input.prompted }) ∨
    (∃ p, i = .output p ∧ execOutput p s = .next t) ∨
    (i = .halt ∧ t = s.haltWith .haltInstr) := by
  cases i with
  | add a b dst => cases h; exact .inl ⟨a, b, dst, _, .inl rfl, rfl⟩
  | multiply a b dst => cases h; exact .inl ⟨a, b, dst, _, .inr (.inl rfl), rfl⟩
  | input p => cases h; exact .inr (.inr (.inl ⟨p, rfl, rfl⟩))
  | output p => exact .inr (.inr (.inr (.inl ⟨p, rfl, h⟩)))
  | jumpIfTrue cond target => cases h; exact .inr (.inl ⟨cond, target, _, .inl rfl, rfl⟩)
  | jumpIfFalse cond target => cases h; exact .inr (.inl ⟨cond, target, _, .inr rfl, rfl⟩)
  | lessThan a b dst => cases h; exact .inl ⟨a, b, dst, _, .inr (.inr (.inl rfl)), rfl⟩
  | equals a b dst => cases h; exact .inl ⟨a, b, dst, _, .inr (.inr (.inr rfl)), rfl⟩
  | halt => cases h; exact .inr (.inr (.inr (.inr ⟨rfl, rfl⟩)))

/-- Everything an instruction can do, its guards included. -/
theorem exec_cases {i : Instr} {s t : State} (h : exec i s = .next t) :
    (∃ c, t = s.raise c ∧ i.kind ≠ .halt ∧ i.kind ≠ .input) ∨
    (∃ (p1 p2 p3 : Param) (f : Int → Int → Int) (a b : Int),
      (i = .add p1 p2 p3 ∨ i = .multiply p1 p2 p3 ∨ i = .lessThan p1 p2 p3 ∨ i = .equals p1 p2 p3) ∧
      readVal s p1 = .ok a ∧ readVal s p2 = .ok b ∧ isWord s.cfg.width (f a b) = true ∧ s.mem.inBounds p3.raw = true ∧
      t = (s.withMem (s.mem.poke p3.raw.toNat (f a b))).advance 4) ∨
    (∃ p, i = .input p ∧ t = { s with status := .awaitInput p, input := s.input.prompted }) ∨
    (∃ p v ch, i = .output p ∧ readVal s p = .ok v ∧ s.output.put v = (.ok, ch) ∧
      t = State.advance 2 { s with output := ch }) ∨
    (∃ p v ch, i = .output p ∧ readVal s p = .ok v ∧ s.output.put v = (.ioError, ch) ∧
      t = State.raise .ioError { s with output := ch }) ∨
    (∃ p1 p2, (i = .jumpIfTrue p1 p2 ∨ i = .jumpIfFalse p1 p2) ∧
      (t = s.advance 3 ∨ ∃ x, readVal s p2 = .ok x ∧ 0 ≤ x ∧ t = s.jumpTo x.toNat)) ∨
    (i = .halt ∧ t = s.haltWith .haltInstr) := by
  rcases exec_shape h with ⟨p1, p2, p3, f, hi, rfl⟩ | ⟨p1, p2, test, hi, rfl⟩ | ⟨p, rfl, rfl⟩ | ⟨p, rfl, hp⟩ | ⟨rfl, rfl⟩
  · rcases alu_answers f p1 p2 p3 s with ⟨c, e⟩ | ⟨a, b, ha, hb, hr, hd, e⟩
    · exact .inl ⟨c, e, by rcases hi with rfl | rfl | rfl | rfl <;> exact ⟨nofun, nofun⟩⟩
    · exact .inr (.inl ⟨p1, p2, p3, f, a, b, hi, ha, hb, hr, hd, e⟩)
  · rcases jump_answers test p1 p2 s with ⟨c, e⟩ | e
    · exact .inl ⟨c, e, by rcases hi with rfl | rfl <;> exact ⟨nofun, nofun⟩⟩
    · exact .inr (.inr (.inr (.inr (.inr (.inl ⟨p1, p2, hi, e⟩)))))
  · exact .inr (.inr (.inl ⟨p, rfl, rfl⟩))
  · rcases execOutput_cases p s with ⟨c, -, he⟩ | ⟨v, ch, hv, hp', he⟩ | ⟨v, ch, hv, hp', he⟩ <;> rw [he] at hp <;> cases hp
    · exact .inl ⟨c, rfl, nofun, nofun⟩
    · exact .inr (.inr (.inr (.inl ⟨p, v, ch, rfl, hv, hp', rfl⟩)))
    · exact .inr (.inr (.inr (.inr (.inl ⟨p, v, ch, rfl, hv, hp', rfl⟩))))
  · exact .inr (.inr (.inr (.inr (.inr (.inr ⟨rfl, rfl⟩)))))

/-- The three things a step in `Running` can do. -/
theorem step_running_cases {s : State} (h : s.status = .running) :
    (s.mem.size ≤ s.pc ∧ step s = .next (s.haltWith .endOfMemory)) ∨
    (s.pc < s.mem.size ∧ ∃ x, fetch s = .error x ∧
      step s = .next (s.raise (.invalidProgram x (s.mem.peek s.pc)))) ∨
    (s.pc < s.mem.size ∧ ∃ i len, fetch s = .ok (i, len) ∧ step s = exec i (s.latched i len)) := by
  unfold step engineStep
  rw [h]
  simp only [stepRunning]
  split
  · rename_i hle; exact .inl ⟨hle, rfl⟩
  · rename_i hlt
    cases hf : fetch s with
    | error x => exact .inr (.inl ⟨by omega, x, rfl, rfl⟩)
    | ok r => exact .inr (.inr ⟨by omega, r.1, r.2, rfl, rfl⟩)

/-- The step of a waiting IN is its completion. -/
theorem step_awaitInput {s : State} {d : Param} (h : s.status = .awaitInput d) :
    step s = .next (completeInput d s) := by
  unfold step engineStep; rw [h]

/-- A halted machine takes no step. -/
theorem step_halted {s : State} {r : HaltReason} (h : s.status = .halted r) : step s = .fault .invocationEnded := by
  unfold step engineStep; rw [h]

/-- A faulted machine takes no step. -/
theorem step_faulted {s : State} {r : FaultRecord} (h : s.status = .faulted r) : step s = .fault .invocationEnded := by
  unfold step engineStep; rw [h]

/-- A fetched instruction lies whole below `N` (30_encoding.md R77). -/
theorem fetch_within {s : State} {i : Instr} {len : Nat} (h : fetch s = .ok (i, len)) :
    len = i.length ∧ s.pc + len ≤ s.mem.size := by
  obtain ⟨h1, h2⟩ := decode_length h
  have h3 : 1 ≤ len := by rw [h1]; exact Nat.le_add_right 1 _
  rw [Memory.length_view] at h2
  omega

/-- Every raw value of a fetched instruction is a Word, if memory holds Words. -/
theorem fetch_raw_isWord {s : State} {i : Instr} {len width : Nat} (hm : s.mem.holdsWords width = true)
    (h : fetch s = .ok (i, len)) : ∀ p ∈ i.params, isWord width p.raw = true := by
  intro p hp
  have hmem := decode_raw_mem h p hp
  obtain ⟨k, hk, hk'⟩ := List.getElem_of_mem hmem
  rw [Memory.getElem_view] at hk'
  rw [← hk']
  exact Memory.isWord_peek hm _

/-- The fetch reads the memory and `pc`, and nothing else of the state. -/
theorem fetch_congr {s t : State} (hm : t.mem = s.mem) (hp : t.pc = s.pc) : fetch t = fetch s := by
  simp [fetch, hm, hp]

/-- The value a parameter reads as is a Word, if its raw value and every cell are. -/
theorem readVal_isWord {s : State} {p : Param} {v : Int} {width : Nat} (hm : s.mem.holdsWords width = true)
    (hp : isWord width p.raw = true) (h : readVal s p = .ok v) : isWord width v = true := by
  rcases readVal_eq_ok.1 h with ⟨-, rfl⟩ | ⟨-, -, rfl⟩
  · exact hp
  · exact Memory.isWord_peek hm _

/-- A run of one more step begins with that step. -/
theorem stepsTo_succ {k : Nat} {s t : State} :
    stepsTo (k + 1) s = some t ↔ ∃ u, step s = .next u ∧ stepsTo k u = some t := by
  cases h : step s <;> simp [stepsTo, h]

/-- What a run of one more step gives begins with what that step gives. -/
theorem alongRun_succ {ofStep : State → List Int} {k : Nat} {s u : State} (h : step s = .next u) :
    alongRun ofStep (k + 1) s = ofStep s ++ alongRun ofStep k u := by
  rw [alongRun, h]

/-- Only a waiting IN takes a value. -/
theorem State.takenByStep_of_running {s : State} (h : s.status = .running) : s.takenByStep = [] := by
  rw [State.takenByStep, h]

/-- A waiting IN on a Scripted channel takes the head of the queue. -/
theorem State.takenByStep_of_scripted {s : State} {d : Param} {queue : List Int} (h : s.status = .awaitInput d)
    (hi : s.input = .scripted queue) : s.takenByStep = queue.take 1 := by
  rw [State.takenByStep, h, hi]
  cases queue <;> rfl

/-- A waiting IN puts nothing. -/
theorem State.putByStep_of_awaitInput {s : State} {d : Param} (h : s.status = .awaitInput d) : s.putByStep = [] := by
  rw [State.putByStep, h]

/-- An OUT puts the value its source reads as. -/
theorem State.putByStep_of_output {s : State} {p : Param} {len : Nat} {v : Int} (h : s.status = .running)
    (hf : fetch s = .ok (.output p, len)) (hv : readVal s p = .ok v) : s.putByStep = [v] := by
  simp [State.putByStep, h, hf, putSource, hv]

/-- An instruction other than OUT puts nothing. -/
theorem State.putByStep_of_other {s : State} {i : Instr} {len : Nat} (hf : fetch s = .ok (i, len))
    (hi : putSource i = none) : s.putByStep = [] := by
  rw [State.putByStep]
  split
  · rw [hf]; simp only [hi]
  all_goals rfl

/-- Where the Words of an instruction stand in memory, the view from there begins with them. -/
theorem Memory.view_of_holdsInstr {m : Memory} {a : Nat} {i : Instr} (h : m.holdsInstr a i) :
    ∃ rest, m.view a longestInstr = encode i ++ rest := by
  have hk : i.length ≤ 4 := by cases i <;> simp [Instr.length, Instr.kind, Kind.paramCount]
  have hn : (encode i).length = i.length := by cases i <;> rfl
  refine ⟨(m.view a longestInstr).drop i.length, ?_⟩
  have ht : (m.view a longestInstr).take i.length = encode i := by
    refine List.ext_getElem ?_ fun j h1 h2 => ?_
    · have hm := h.1
      simp only [List.length_take, Memory.length_view, longestInstr, hn]
      omega
    · rw [List.getElem_take, Memory.getElem_view]
      exact h.2 j h2
  rw [← ht, List.take_append_drop]

end Sys2Proof.Machine
end

