-- ==== Sys2Proof/Laws/Text.lean ====
section
/-! SUPPORT. The laws of integers as text: digits, decimal forms, lines and tokens (70_reset_and_hazards.md R261,
44_channels.md R197, R199). -/

namespace Sys2Proof.Machine

/-- A decimal digit. -/
def IsDigit (c : Char) : Prop := ∃ d, d < 10 ∧ c = digitChar d

/-- The value of a digit's character. -/
theorem digitValue_digitChar {d : Nat} (h : d < 10) : digitValue (digitChar d) = some d := by
  interval_cases d <;> decide

/-- A digit is none of the characters the texts give a meaning. -/
theorem IsDigit.not_special {c : Char} (h : IsDigit c) : c ≠ '-' ∧ c ≠ '\n' ∧ c ≠ ',' ∧ isSpace c = false := by
  obtain ⟨d, hd, rfl⟩ := h
  interval_cases d <;> decide

/-- With enough fuel, `digitsOnto` writes digits before `acc`, and reading them back gives the number. -/
theorem digitsOnto_spec : ∀ (fuel n : Nat) (acc : List Char), n < 2 ^ fuel → 1 ≤ fuel →
    ∃ ds, ds ≠ [] ∧ (∀ c ∈ ds, IsDigit c) ∧ digitsOnto fuel n acc = ds ++ acc ∧
      parseDigitsFrom 0 (ds ++ acc) = parseDigitsFrom n acc := by
  intro fuel
  induction fuel with
  | zero => intro n acc _ h; omega
  | succ f ih =>
    intro n acc hn _
    unfold digitsOnto
    split
    · rename_i h
      exact ⟨[digitChar n], by simp, by simpa using ⟨n, h, rfl⟩, rfl, by simp [parseDigitsFrom, digitValue_digitChar h]⟩
    · rename_i h
      have hm : n % 10 < 10 := Nat.mod_lt _ (by omega)
      have h1 : n / 10 < 2 ^ f := by rw [pow_succ] at hn; omega
      have h2 : 1 ≤ f := by
        rcases Nat.eq_zero_or_pos f with rfl | h0
        · simp at h1; omega
        · exact h0
      obtain ⟨ds, h3, h4, h5, h6⟩ := ih (n / 10) (digitChar (n % 10) :: acc) h1 h2
      refine ⟨ds ++ [digitChar (n % 10)], by simp, ?_, by rw [h5]; simp, ?_⟩
      · intro c hc
        rcases List.mem_append.1 hc with hc | hc
        · exact h4 c hc
        · exact ⟨_, hm, by simpa using hc⟩
      · rw [List.append_assoc, List.singleton_append, h6]
        simp only [parseDigitsFrom, digitValue_digitChar hm]
        congr 1; omega

/-- The decimal form of a natural number: digits, at least one, that read back as the number. -/
theorem decimalNat_spec (n : Nat) :
    decimalNat n ≠ [] ∧ (∀ c ∈ decimalNat n, IsDigit c) ∧ parseDigits (decimalNat n) = some n := by
  obtain ⟨ds, h3, h4, h5, h6⟩ := digitsOnto_spec (n.log2 + 1) n [] Nat.lt_log2_self (by omega)
  rw [List.append_nil] at h5 h6
  unfold decimalNat
  rw [h5]
  refine ⟨h3, h4, ?_⟩
  cases ds with
  | nil => exact absurd rfl h3
  | cons c cs => simpa [parseDigits, parseDigitsFrom] using h6

/-- The decimal form of an integer holds no line end, comma or whitespace, and is not empty. -/
theorem decimal_chars (v : Int) : decimal v ≠ [] ∧ ∀ c ∈ decimal v, c ≠ '\n' ∧ c ≠ ',' ∧ isSpace c = false := by
  obtain ⟨h1, h2, -⟩ := decimalNat_spec v.natAbs
  unfold decimal
  split
  · refine ⟨by simp, fun c hc => ?_⟩
    rcases List.mem_cons.1 hc with rfl | hc
    · decide
    · exact (h2 c hc).not_special.2
  · exact ⟨h1, fun c hc => (h2 c hc).not_special.2⟩

/-- A line is taken up to its line end. -/
theorem takeLine_append {line : List Char} (rest : List Char) (h : ∀ c ∈ line, c ≠ '\n') :
    takeLine (line ++ '\n' :: rest) = some (line, rest) := by
  induction line with
  | nil => simp [takeLine]
  | cons c cs ih =>
    have hr := ih fun c hc => h c (by simp [hc])
    simp [takeLine, hr, h c (by simp)]

/-- A text without a separator is one piece. -/
theorem splitAtChar_of_not_mem {sep : Char} {piece : List Char} (h : ∀ c ∈ piece, c ≠ sep) :
    splitAtChar sep piece = [piece] := by
  induction piece with
  | nil => rfl
  | cons c cs ih => rw [splitAtChar, if_neg (h c (by simp)), ih fun c hc => h c (by simp [hc])]

/-- The piece before the first separator. -/
theorem splitAtChar_append {sep : Char} {piece : List Char} (rest : List Char) (h : ∀ c ∈ piece, c ≠ sep) :
    splitAtChar sep (piece ++ sep :: rest) = piece :: splitAtChar sep rest := by
  induction piece with
  | nil => simp [splitAtChar]
  | cons c cs ih => rw [List.cons_append, splitAtChar, if_neg (h c (by simp)), ih fun c hc => h c (by simp [hc])]

/-- There is always a piece. -/
theorem splitAtChar_ne_nil (sep : Char) (text : List Char) : splitAtChar sep text ≠ [] := by
  cases text with
  | nil => simp [splitAtChar]
  | cons c cs => unfold splitAtChar; split <;> [simp; (split <;> simp)]

/-- A text without whitespace is trimmed already. -/
theorem trim_of_noSpace {cs : List Char} (h : ∀ c ∈ cs, isSpace c = false) : trim cs = cs := by
  have drop : ∀ {l : List Char}, (∀ c ∈ l, isSpace c = false) → l.dropWhile isSpace = l := by
    intro l hl
    cases l with
    | nil => rfl
    | cons c l => simp [List.dropWhile, hl c (by simp)]
  rw [trim, drop h, drop (by simpa using h), List.reverse_reverse]

/-- Trimming takes off the whitespace around a text that holds none. -/
theorem trim_append_of_space {before cs after : List Char} (hb : before.all isSpace = true) (ha : after.all isSpace = true)
    (h : ∀ c ∈ cs, isSpace c = false) (hne : cs ≠ []) : trim (before ++ cs ++ after) = cs := by
  have drop : ∀ {pad l : List Char}, (∀ c ∈ pad, isSpace c = true) → l ≠ [] → (∀ c ∈ l.head?, isSpace c = false) →
      (pad ++ l).dropWhile isSpace = l := by
    intro pad l hp hl hc
    induction pad with
    | nil =>
      cases l with
      | nil => exact absurd rfl hl
      | cons c l => simp [hc c (by simp)]
    | cons c pad ih => simp [hp c (by simp), ih fun d hd => hp d (by simp [hd])]
  have headOf : ∀ {l r : List Char}, l ≠ [] → (∀ c ∈ l, isSpace c = false) → ∀ c ∈ (l ++ r).head?, isSpace c = false := by
    intro l r hl hc c hm
    cases l with
    | nil => exact absurd rfl hl
    | cons d l =>
      obtain rfl : d = c := by simpa using hm
      exact hc d (by simp)
  rw [trim, List.append_assoc, drop (by simpa using hb) (by simp [hne]) (headOf hne h), List.reverse_append,
    drop (by simpa using ha) (by simpa using hne)
      (by simpa using headOf (l := cs.reverse) (r := []) (by simpa using hne) (by simpa using h)),
    List.reverse_reverse]

/-- What `allSome` over a mapped list answers: one value per element, each from an element. -/
theorem allSome_map_eq_some {α β : Type} {f : α → Option β} {l : List α} : ∀ {r : List β}, allSome (l.map f) = some r →
    r.length = l.length ∧ ∀ y ∈ r, ∃ x ∈ l, f x = some y := by
  induction l with
  | nil => intro r h; cases h; simp
  | cons x xs ih =>
    intro r h
    cases hx : f x with
    | none => simp [allSome, hx] at h
    | some y =>
      cases h' : allSome (xs.map f) with
      | none => simp [allSome, hx, h'] at h
      | some r' =>
        simp only [List.map_cons, hx, allSome, h', Option.map_some, Option.some.injEq] at h
        subst h
        obtain ⟨h1, h2⟩ := ih h'
        refine ⟨by simp [h1], fun z hz => ?_⟩
        rcases List.mem_cons.1 hz with rfl | hz
        · exact ⟨x, by simp, hx⟩
        · obtain ⟨w, hw, hw'⟩ := h2 z hz
          exact ⟨w, by simp [hw], hw'⟩

/-- One missing value makes all of them missing. -/
theorem allSome_map_eq_none {α β : Type} {f : α → Option β} {l : List α} (h : ∃ x ∈ l, f x = none) :
    allSome (l.map f) = none := by
  induction l with
  | nil => simp at h
  | cons x xs ih =>
    cases hx : f x with
    | none => simp [allSome, hx]
    | some y =>
      obtain ⟨w, hw, hw'⟩ := h
      rcases List.mem_cons.1 hw with rfl | hw
      · rw [hx] at hw'; cases hw'
      · simp [allSome, hx, ih ⟨w, hw, hw'⟩]

/-- What the integer grammar accepts is a Word. -/
theorem isWord_of_parseInteger {width : Nat} {cs : List Char} {v : Int} (h : parseInteger width cs = some v) :
    isWord width v = true := by
  unfold parseInteger at h
  split at h
  · cases h
  · split at h
    · cases h; assumption
    · cases h

end Sys2Proof.Machine
end

