-- ==== Sys2Proof/Tests/Slice0.lean ====
section
/-! SUPPORT. The model's own tests: ill-formed terms refused, words written out from the spec's tables decoded, one step per
test with the expected result taken from 95_test_vectors.md or from the rule named, and for every statement with hypotheses
a concrete witness that meets them. -/

namespace Sys2Proof.Tests

open Sys2Proof.Machine

/-! ## Small states -/

/-- A core at reset with an image, no input and an empty Collecting output. -/
def loaded (image : List Int) : State := resetWith Config.default image (.scripted []) (.collecting [])

/-- The same with a Scripted input. -/
def fed (image queue : List Int) : State := resetWith Config.default image (.scripted queue) (.collecting [])

/-- An IN with destination `d` waits. -/
def waiting (image : List Int) (d : Param) (input : InputChannel) : State :=
  { loaded image with status := .awaitInput d, latch := some { instr := .input d, length := 2 }, input := input }

/-- `jump_target_eval = eager`. -/
def eager (s : State) : State := { s with cfg := { s.cfg with jumpTargetEval := .eager } }

/-- A core whose output is Interactive, with the host's next answers. -/
def talking (image : List Int) (answers : List PutAnswer) : State :=
  { loaded image with output := .interactive [] 0 answers }

/-- The state after one step. -/
def stepped (s : State) : Option State := stepsTo 1 s

/-- The state an instruction ends in. -/
def ended (i : Instr) (s : State) : Option State :=
  match exec i s with
  | .next t => some t
  | .fault _ => none
  | .refused _ => none

/-- `#v`. -/
def imm (v : Int) : Param := ⟨v, .immediate⟩

/-- `[a]`. -/
def pos (a : Int) : Param := ⟨a, .position⟩

/-- `WMAX` for `W = 64`, as 95_test_vectors.md section 2.3 writes it. -/
def wmax : Int := 9223372036854775807

/-- `WMIN` for `W = 64`. -/
def wmin : Int := -9223372036854775808

/-! ## WellFormed refuses ill-formed terms -/

theorem test_wf_accepts_the_bounds : Instr.wf 64 (.add (imm wmax) (pos wmin) (pos 0)) = true := by decide
theorem test_wf_refuses_above_wmax : Instr.wf 64 (.jumpIfTrue (imm (wmax + 1)) (imm 0)) = false := by decide
theorem test_wf_refuses_below_wmin : Instr.wf 64 (.output (pos (wmin - 1))) = false := by decide
theorem test_wf_refuses_a_bad_destination : Instr.wf 64 (.equals (imm 0) (imm 0) (pos (wmax + 1))) = false := by decide
theorem test_wf_refuses_a_bad_second_source : Instr.wf 64 (.multiply (imm 0) (imm (wmin - 1)) (pos 0)) = false := by decide
theorem test_wf_refuses_a_bad_input_destination : Instr.wf 64 (.input (imm (wmax + 1))) = false := by decide
theorem test_wf_follows_the_width : Instr.wf 65 (.output (imm (wmax + 1))) = true := by decide

/-! ## Decoding, from the words of 30_encoding.md R75 and the programs of 95_test_vectors.md -/

theorem test_decode_add_positions : decode [1, 9, 10, 3, 2] = .ok (.add (pos 9) (pos 10) (pos 3), 4) := by decide
theorem test_decode_add_second_immediate : decode [1001, 15, -1, 15] = .ok (.add (pos 15) (imm (-1)) (pos 15), 4) := by decide
theorem test_decode_add_third_digit : decode [10001, 1, 2, 3] = .ok (.add (pos 1) (pos 2) (imm 3), 4) := by decide
theorem test_decode_multiply : decode [102, 4, 3, 4] = .ok (.multiply (imm 4) (pos 3) (pos 4), 4) := by decide
theorem test_decode_input : decode [3, 15, 1006] = .ok (.input (pos 15), 2) := by decide
theorem test_decode_output : decode [104, -7, 99] = .ok (.output (imm (-7)), 2) := by decide
theorem test_decode_jump_if_true : decode [105, 0, 1000] = .ok (.jumpIfTrue (imm 0) (pos 1000), 3) := by decide
theorem test_decode_jump_if_false : decode [1006, 15, 14] = .ok (.jumpIfFalse (pos 15) (imm 14), 3) := by decide
theorem test_decode_less_than : decode [1107, 7, 8, 0, 99] = .ok (.lessThan (imm 7) (imm 8) (pos 0), 4) := by decide
theorem test_decode_equals : decode [8, 9, 10, 9] = .ok (.equals (pos 9) (pos 10) (pos 9), 4) := by decide
theorem test_decode_halt : decode [99, -5, 12345] = .ok (.halt, 1) := by decide

/-- 95_test_vectors.md section 2.1: the encodings that fail, and how. -/
theorem test_decode_failures :
    [[0], [9, 0], [98], [100], [-1], [77]].map decode = List.replicate 6 (.error .invalidOpcode) ∧
    [[201, 0, 0, 0], [21101, 2, 3, 5, 99, 0], [199], [299], [100001, 0, 0, 0, 99], [1104, 5], [201]].map decode =
      List.replicate 7 (.error .invalidAddressingMode) ∧
    [[1101, 1, 1], [3], [5, 0]].map decode = List.replicate 3 (.error .unexpectedEnd) := by decide

/-- R87: `MUL [4], #3, [4]` assembles to `1002,4,3,4`. -/
theorem test_encode_multiply : encode (.multiply (pos 4) (imm 3) (pos 4)) = [1002, 4, 3, 4] := by decide

/-- The bits of four 64-bit Words, the first lowest, and a negative Word among them (log 4). -/
theorem test_decode_table_word :
    decodeTableWord 256 (1101 + (2 ^ 64 - 3) * 2 ^ 64 + 5 * 2 ^ 128) = some (.add (imm (-3)) (imm 5) (pos 0)) ∧
    decodeTableWord 8 99 = some .halt ∧ decodeTableWord 8 9 = none := by decide

/-- `step` fetches and runs exactly the instruction `withFetchWord` stores, as the first after reset. -/
theorem test_with_fetch_word :
    (stepped (State.reset.withFetchWord 256 (1101 + 2 * 2 ^ 64 + 5 * 2 ^ 128))).map (fun t => (t.pc, t.mem.contents)) =
      some (4, [7, 2, 5, 0]) := by decide

/-! ## One step of each instruction -/

/-- Section 2.2: the own word is overwritten, the advance uses the latched length. -/
theorem test_add_overwrites_itself :
    (stepped (loaded [1101, 1, 1, 0, 99])).map (fun t => (t.pc, t.mem.contents, t.latch)) = some (4, [2, 1, 1, 0, 99], none) := by
  decide

/-- Section 2.3. -/
theorem test_add_overflows : (stepped (loaded [1101, wmax, 1, 0, 99])).map (fun t => (t.status, t.mem.contents)) =
    some (.faulted ⟨0, .overflow 9223372036854775808⟩, [1101, wmax, 1, 0, 99]) := by decide

/-- R132's example. -/
theorem test_multiply_mixes_modes : (stepped (loaded [1002, 4, 3, 4, 33])).map (fun t => t.mem.contents) =
    some [1002, 4, 3, 4, 99] := by decide

/-- Section 2.3. -/
theorem test_multiply_overflows : (stepped (loaded [1102, wmin, -1, 0, 99])).map (fun t => t.status) =
    some (.faulted ⟨0, .overflow 9223372036854775808⟩) := by decide

/-- Section 2.3: the comparison is signed. -/
theorem test_less_than_is_signed : (stepped (loaded [1107, -1, 0, 0, 99])).map (fun t => t.mem.peek 0) = some 1 := by decide
theorem test_less_than_is_strict : (stepped (loaded [1107, 5, 5, 0, 99])).map (fun t => t.mem.peek 0) = some 0 := by decide

/-- Section 2.3: `M[0]` is compared with itself, then overwritten. -/
theorem test_equals_overwrites_itself : (stepped (loaded [8, 0, 0, 0, 99])).map (fun t => (t.pc, t.mem.peek 0)) =
    some (4, 1) := by decide
theorem test_equals_not_equal : (stepped (loaded [1108, 0, 1, 0, 99])).map (fun t => t.mem.peek 0) = some 0 := by decide

/-- Section 2.4: the Immediate destination digit is ignored. -/
theorem test_input_ignores_the_mode : (stepped (waiting [103, 3, 99, 0] (imm 3) (.scripted [42]))).map
    (fun t => (t.pc, t.mem.contents, t.input)) = some (2, [103, 3, 99, 42], .scripted []) := by decide

/-- Section 2.4: 5 was consumed. -/
theorem test_input_out_of_bounds_consumes : (stepped (waiting [3, 10, 99] (pos 10) (.scripted [5, 6]))).map
    (fun t => (t.status, t.input)) = some (.faulted ⟨0, .outOfBounds 10⟩, .scripted [6]) := by decide

/-- Section 2.4. -/
theorem test_output_literal : (stepped (loaded [104, -7, 99])).map (fun t => (t.pc, t.output)) =
    some (2, .collecting [-7]) := by decide
theorem test_output_out_of_bounds : (stepped (loaded [4, 10, 99])).map (fun t => (t.status, t.output)) =
    some (.faulted ⟨0, .outOfBounds 10⟩, .collecting []) := by decide

/-- Section 2.5: -5 is not zero. -/
theorem test_jump_if_true_negative : (stepped (loaded [1105, -5, 4, 0, 99])).map (fun t => t.pc) = some 4 := by decide

/-- Section 2.5: `lazy` falls through, `eager` faults. -/
theorem test_jump_if_true_eager :
    (stepped (loaded [105, 0, 1000])).map (fun t => (t.pc, t.status)) = some (3, .running) ∧
    (stepped (eager (loaded [105, 0, 1000]))).map (fun t => t.status) = some (.faulted ⟨0, .outOfBounds 1000⟩) := by decide

/-- Section 2.5: an indirect target. -/
theorem test_jump_if_false_indirect : (stepped (loaded [6, 5, 6, 99, 99, 0, 4])).map (fun t => t.pc) = some 4 := by decide
theorem test_jump_if_false_not_taken : (stepped (loaded [1106, 7, 0, 99])).map (fun t => t.pc) = some 3 := by decide

/-- Section 2.2. -/
theorem test_halt : (stepped (loaded [99, -5, 12345])).map (fun t => (t.pc, t.status)) =
    some (0, .halted .haltInstr) := by decide
theorem test_halt_with_a_digit_fails : (stepped (loaded [199])).map (fun t => t.status) =
    some (.faulted ⟨0, .invalidProgram .invalidAddressingMode 199⟩) := by decide

/-! ## Channels, loader, assembler (95_test_vectors.md sections 2.6, 2.7; 30_encoding.md R87) -/

theorem test_scripted_text : (InputChannel.scriptedText "4\nx\n".toList).answers 64 3 =
    [.value 4, .ioError, .exhausted] := by decide
theorem test_loader_accepts : ["  1 , -2 ,3 \n", "007,-0"].map (fun t => parseProgram 64 t.toList) =
    [.ok [1, -2, 3], .ok [7, 0]] := by decide
theorem test_loader_refuses :
    ["", "1,,2", "1,2,", "+5", "1 2", "9223372036854775808", "a"].map (fun t => parseProgram 64 t.toList) =
      List.replicate 7 (.error .parseError) := by decide

/-- The loop of program A: a label stands for an index, JMP is a JT. -/
theorem test_assemble_a_loop : assembleText 64 "loop: ADD [9], #-1, [9]\nJMP #loop\nn: DATA 5".toList =
    some [1001, 9, -1, 9, 1105, 1, 0, 5] := by decide

/-! ## Witnesses: every statement with hypotheses has a state and operands that meet them -/

theorem witness_DecodedViewIsTheEncoding : decode [1002, 4, 3, 4, 33] = .ok (.multiply (pos 4) (imm 3) (pos 4), 4) := by decide

theorem witness_LegalInstructionWordsAreTheTable : 3 ≤ [0, 0, (0 : Int)].length ∧
    decode [11108, 0, 0, 0] = .ok (.equals (imm 0) (imm 0) (imm 0), 4) ∧
    ∃ row ∈ legalWords, row.1 = .equals ∧ 11108 ∈ row.2 := by decide

theorem witness_InvalidOpcodeIsTheUnlistedOpcodes :
    [0, 100, 9, 98].map (fun w => decode [w, 0, 0, 0]) = List.replicate 4 (.error .invalidOpcode) ∧
    [8, 99].all (fun w => decode [w, 0, 0, 0] ≠ .error .invalidOpcode) = true := by decide

theorem witness_UnexpectedEndIsTooFewWords_short : (loaded [1101, 1, 1]).pc < (loaded [1101, 1, 1]).mem.size ∧
    (loaded [1101, 1, 1]).mem.peek 0 = (Instr.add (imm 1) (imm 1) (pos 0)).word ∧
    fetch (loaded [1101, 1, 1]) = .error .unexpectedEnd := by decide
theorem witness_UnexpectedEndIsTooFewWords_whole : (loaded [1101, 1, 1, 0]).pc < (loaded [1101, 1, 1, 0]).mem.size ∧
    (loaded [1101, 1, 1, 0]).mem.peek 0 = (Instr.add (imm 1) (imm 1) (pos 0)).word ∧
    fetch (loaded [1101, 1, 1, 0]) = .ok (.add (imm 1) (imm 1) (pos 0), 4) := by decide
theorem witness_UnexpectedEndIsTooFewWords_halt : kindOfWord ((loaded [199]).mem.peek 0) = some .halt ∧
    fetch (loaded [199]) = .error .invalidAddressingMode := by decide

theorem witness_DecodeFailuresComeInOrder_negative : (-1 : Int) < 0 ∧ decode [-1] = .error .invalidOpcode := by decide
theorem witness_DecodeFailuresComeInOrder_mode : kindOfWord 201 = some .add ∧ 2 ≤ digit 201 2 := by decide
theorem witness_DecodeFailuresComeInOrder_overlong : kindOfWord 199 = some .halt ∧ (199 : Nat) / 10 ^ (2 + 0) ≠ 0 := by decide
theorem witness_DecodeFailuresComeInOrder_end : kindOfWord 11101 = some .add ∧
    decode [11101, 0, 0] = .error .unexpectedEnd ∧ decode [11101, 0, 0, 0] = .ok (.add (imm 0) (imm 0) (imm 0), 4) := by decide

theorem witness_LengthFollowsFromTheOpcode : decode [1105, 1, 4] = .ok (.jumpIfTrue (imm 1) (imm 4), 3) ∧
    decode [5, 1, 4] = .ok (.jumpIfTrue (pos 1) (pos 4), 3) ∧ (1105 : Int).toNat % 100 = (5 : Int).toNat % 100 := by decide

theorem witness_MemWriteChangesOneCellOrFaults : (loaded [7, 8]).mem.wf = true ∧
    [-1, 2].map (fun a => memWrite (loaded [7, 8]).mem a 5) = [.error (.outOfBounds (-1)), .error (.outOfBounds 2)] ∧
    [0, 1].map (fun a => (memWrite (loaded [7, 8]).mem a 5).map Memory.contents) = [.ok [5, 8], .ok [7, 5]] := by decide

theorem witness_ReadValResolvesBothModes :
    [-1, 0, 1, 2].map (fun a => readVal (loaded [7, 8]) (pos a)) =
      [.error (.outOfBounds (-1)), .ok 7, .ok 8, .error (.outOfBounds 2)] := by decide

theorem witness_DestinationModeHasNoEffect : (waiting [103, 3, 99, 0] (imm 3) (.scripted [42])).status = .awaitInput (imm 3) ∧
    (InputChannel.scripted [42]).take 64 = some (.value 42, .scripted []) ∧
    (stepped (waiting [103, 3, 99, 0] (imm 3) (.scripted [42]))).isSome = true := by decide

/-- The largest and the smallest sum, at the last and the first cell. -/
theorem witness_AddStoresTheSum : (loaded [1, wmax - 1]).mem.wf = true ∧
    readVal (loaded [1, wmax - 1]) (pos 1) = .ok (wmax - 1) ∧ readVal (loaded [1, wmax - 1]) (pos 0) = .ok 1 ∧
    wordMin (loaded [1, wmax - 1]).cfg.width ≤ wmax - 1 + 1 ∧ wmax - 1 + 1 = wordMax (loaded [1, wmax - 1]).cfg.width ∧
    0 ≤ (pos 1).raw ∧ (pos 1).raw < ((loaded [1, wmax - 1]).mem.size : Int) ∧
    (ended (.add (pos 1) (pos 0) (pos 1)) (loaded [1, wmax - 1])).map (fun t => t.mem.contents) = some [1, wmax] ∧
    (ended (.add (imm (wmin + 1)) (imm (-1)) (imm 0)) (loaded [1])).map (fun t => t.mem.contents) = some [wmin] := by decide

theorem witness_MultiplyStoresTheProduct : (loaded [1, 2]).mem.wf = true ∧
    readVal (loaded [1, 2]) (imm wmin) = .ok wmin ∧ readVal (loaded [1, 2]) (pos 0) = .ok 1 ∧
    wmin * 1 = wordMin (loaded [1, 2]).cfg.width ∧ wmin * 1 ≤ wordMax (loaded [1, 2]).cfg.width ∧
    0 ≤ (pos 1).raw ∧ (pos 1).raw < ((loaded [1, 2]).mem.size : Int) ∧
    (ended (.multiply (imm wmin) (pos 0) (pos 1)) (loaded [1, 2])).map (fun t => t.mem.contents) = some [1, wmin] ∧
    (ended (.multiply (imm wmax) (imm 1) (imm 0)) (loaded [1])).map (fun t => t.mem.contents) = some [wmax] := by decide

theorem witness_ResultOutOfRangeOverflows : readVal (loaded []) (imm wmax) = .ok wmax ∧ readVal (loaded []) (imm 1) = .ok 1 ∧
    wordMax 64 < wmax + 1 ∧ wmin + -1 < wordMin 64 ∧ wordMax 64 < wmin * -1 ∧ wmin * 2 < wordMin 64 := by decide

theorem witness_LessThanStoresTheComparison : (loaded [7, 8]).mem.wf = true ∧ readVal (loaded [7, 8]) (pos 0) = .ok 7 ∧
    readVal (loaded [7, 8]) (pos 1) = .ok 8 ∧ 0 ≤ (pos 1).raw ∧ (pos 1).raw < ((loaded [7, 8]).mem.size : Int) ∧
    (ended (.lessThan (pos 0) (pos 1) (pos 1)) (loaded [7, 8])).map (fun t => t.mem.contents) = some [7, 1] ∧
    (ended (.lessThan (pos 1) (imm 8) (imm 0)) (loaded [7, 8])).map (fun t => t.mem.contents) = some [0, 8] := by decide

theorem witness_EqualsStoresTheComparison : (loaded [7, 7]).mem.wf = true ∧ readVal (loaded [7, 7]) (pos 0) = .ok 7 ∧
    readVal (loaded [7, 7]) (pos 1) = .ok 7 ∧ 0 ≤ (pos 1).raw ∧ (pos 1).raw < ((loaded [7, 7]).mem.size : Int) ∧
    (ended (.equals (pos 0) (pos 1) (pos 1)) (loaded [7, 7])).map (fun t => t.mem.contents) = some [7, 1] ∧
    (ended (.equals (imm 6) (pos 1) (imm 0)) (loaded [7, 7])).map (fun t => t.mem.contents) = some [0, 7] := by decide
theorem witness_EqualsStoresTheComparison_faults :
    (loaded [7]).mem.inBounds 1 = false ∧ (loaded [7]).mem.inBounds (-1) = false ∧
    (ended (.equals (pos 1) (imm 0) (pos 0)) (loaded [7])).map (fun t => t.status) = some (.faulted ⟨0, .outOfBounds 1⟩) ∧
    (ended (.equals (imm 0) (pos (-1)) (pos 0)) (loaded [7])).map (fun t => t.status) = some (.faulted ⟨0, .outOfBounds (-1)⟩) ∧
    (ended (.equals (imm 0) (imm 0) (imm 1)) (loaded [7])).map (fun t => t.status) = some (.faulted ⟨0, .outOfBounds 1⟩) := by decide

theorem witness_AluFaultsComeInOrder : readVal (loaded [7]) (pos 1) = .error (.outOfBounds 1) ∧
    readVal (loaded [7]) (pos 0) = .ok 7 ∧ isWord 64 (7 + 7) = true ∧ ((loaded [7]).mem.size : Int) ≤ 1 ∧
    (ended (.add (pos 1) (pos (-1)) (pos 1)) (loaded [7])).map (fun t => t.status) = some (.faulted ⟨0, .outOfBounds 1⟩) ∧
    (ended (.multiply (pos 0) (pos (-1)) (pos 1)) (loaded [7])).map (fun t => t.status) =
      some (.faulted ⟨0, .outOfBounds (-1)⟩) ∧
    (ended (.lessThan (pos 0) (pos 0) (pos 1)) (loaded [7])).map (fun t => t.status) = some (.faulted ⟨0, .outOfBounds 1⟩) := by
  decide

theorem witness_AluFrame : (loaded [7, 8]).mem.wf = true ∧
    (ended (.add (pos 0) (imm 1) (pos 1)) (loaded [7, 8])).isSome = true ∧ writeAddr (loaded [7, 8]) (pos 1) = .ok 1 ∧
    (ended (.add (pos 0) (imm 1) (pos 2)) (loaded [7, 8])).isSome = true ∧
    writeAddr (loaded [7, 8]) (pos 2) = .error (.outOfBounds 2) := by decide

theorem witness_InputIssuesTake : (fed [] [5]).input = .scripted [5] ∧
    (waiting [] (pos 0) (.scriptedText [])).input = .scriptedText [] ∧
    (waiting [] (pos 0) (.interactive 0 [])).input = .interactive 0 [] := by decide

theorem witness_InputStoresTheTakenValue : (fed [3, 1] [wmax]).mem.wf = true ∧
    (fed [3, 1] [wmax]).input.prompted.take 64 = some (.value wmax, .scripted []) ∧ (0 : Int) ≤ (pos 1).raw ∧
    (pos 1).raw < ((fed [3, 1] [wmax]).mem.size : Int) := by decide
theorem witness_InputStoresTheTakenValue_interactive :
    (InputChannel.interactive 0 [.line ['-', '5', ' ']]).prompted.take 64 = some (.value (-5), .interactive 1 []) := by decide

theorem witness_InputOutOfRangeStillConsumes :
    (waiting [3, 10, 99] (pos 10) (.scripted [5, 6])).status = .awaitInput (pos 10) ∧
    (InputChannel.scripted [5, 6]).take 64 = some (.value 5, .scripted [6]) ∧
    ((waiting [3, 10, 99] (pos 10) (.scripted [5, 6])).mem.size : Int) ≤ 10 := by decide

theorem witness_ChannelFailuresBecomeErrors : (InputChannel.scripted []).take 64 = some (.exhausted, .scripted []) ∧
    (InputChannel.interactive 1 [.failure]).take 64 = some (.ioError, .interactive 1 []) ∧
    (talking [4, 0] [.ioError]).output.put 4 = (.ioError, .interactive [] 1 []) ∧
    readVal (talking [4, 0] [.ioError]) (pos 0) = .ok 4 := by decide

theorem witness_WaitKeepsStateUntilAnswered :
    (waiting [3, 0] (pos 0) (.interactive 1 [])).status = .awaitInput (pos 0) ∧
    (waiting [3, 0] (pos 0) (.interactive 1 [])).input = .interactive 1 [] := by decide
theorem witness_WaitKeepsStateUntilAnswered_line :
    (waiting [3, 1] (pos 1) (.interactive 1 [.line [' ', '-', '5'], .failure])).status = .awaitInput (pos 1) ∧
    parseInteger 64 (trim [' ', '-', '5']) = some (-5) ∧ (waiting [3, 1] (pos 1) (.interactive 1 [])).mem.wf = true ∧
    (1 : Int) < (loaded [3, 1]).mem.size ∧
    (stepped (waiting [3, 1] (pos 1) (.interactive 1 [.line [' ', '-', '5'], .failure]))).map
      (fun t => (t.mem.peek 1, t.pc, t.status, t.input)) = some (-5, 2, .running, .interactive 1 [.failure]) := by decide
theorem witness_WaitKeepsStateUntilAnswered_range : parseInteger 64 (trim ['7']) = some 7 ∧
    ((loaded [3, 2]).mem.size : Int) ≤ 2 ∧
    (stepped (waiting [3, 2] (pos 2) (.interactive 1 [.line ['7']]))).map (fun t => t.status) =
      some (.faulted ⟨0, .outOfBounds 2⟩) := by decide
theorem witness_WaitKeepsStateUntilAnswered_failures : parseInteger 64 (trim ['+', '7']) = none ∧
    (stepped (waiting [3, 1] (pos 1) (.interactive 1 [.line ['+', '7']]))).map (fun t => t.status) =
      some (.faulted ⟨0, .ioError⟩) ∧
    (stepped (waiting [3, 1] (pos 1) (.interactive 1 [.endOfInput]))).map (fun t => t.status) =
      some (.faulted ⟨0, .inputExhausted⟩) ∧
    (stepped (waiting [3, 1] (pos 1) (.interactive 1 [.failure]))).map (fun t => t.status) =
      some (.faulted ⟨0, .ioError⟩) := by decide
theorem witness_WaitKeepsStateUntilAnswered_trim : [' ', '\t'].all isSpace = true ∧ ['\r'].all isSpace = true ∧
    isWord 64 (-12) = true ∧ trim ([' ', '\t'] ++ decimal (-12) ++ ['\r']) = ['-', '1', '2'] := by decide

theorem witness_ScriptedInputNeverBlocks : (∃ queue, (fed [3, 0] [5]).input = .scripted queue) ∧
    ∃ text, (waiting [3, 0] (pos 0) (.scriptedText ['4', '\n'])).input = .scriptedText text := ⟨⟨_, rfl⟩, _, rfl⟩

theorem witness_DecimalFormParsesBack : isWord 64 wmin = true ∧ isWord 64 wmax = true ∧
    decimal (-120) = ['-', '1', '2', '0'] ∧ decimal 0 = ['0'] := by decide

theorem witness_TextBackedChannelRunsLikeTheQueue : [5, -6].all (isWord (loaded [3, 0]).cfg.width) = true ∧
    linesOfWords [5, -6] = ['5', '\n', '-', '6', '\n'] ∧
    (stepsTo 2 (fed [3, 0] [5, -6])).map (fun t => t.input) = some (.scripted [-6]) := by decide

theorem witness_OutputPutsTheValue : readVal (loaded [4, 0]) (pos 0) = .ok 4 ∧
    (loaded [4, 0]).output.put 4 = (.ok, .collecting [4]) ∧ (pos 2).mode = .position ∧ ((loaded [4, 0]).mem.size : Int) ≤ 2 := by
  decide

theorem witness_InteractiveOutputFollowsTheHost : readVal (talking [4, 0] [.ok]) (pos 0) = .ok 4 ∧
    (talking [4, 0] [.ok]).output = .interactive [] 0 [.ok] ∧ [PutAnswer.ok].head? = some .ok ∧
    [PutAnswer.ioError].head? = some .ioError := by decide

theorem witness_OnlyInAndOutTouchTheChannels :
    (stepped (waiting [3, 0] (pos 0) (.scripted [5]))).map (fun t => t.input) = some (.scripted []) ∧
    (stepped { fed [3, 0] [] with input := .interactive 0 [] }).map (fun t => t.input) = some (.interactive 1 []) ∧
    (stepped (loaded [104, 5])).map (fun t => t.output) = some (.collecting [5]) := by decide

theorem witness_RunsKeepChannelState : (fed [3, 0] [5, 6]).input = .scripted [5, 6] ∧
    (fed [3, 0] [5, 6]).output = .collecting [] ∧ (stepsTo 2 (fed [3, 0] [5, 6])).isSome = true := by decide
/-- `3,0,4,0,104,8,98` on the queue 5, 6: the IN takes 5, the OUTs put 5 and then 8, and 98 ends the run in a fault. -/
theorem witness_RunsKeepChannelState_values :
    (stepsTo 5 (fed [3, 0, 4, 0, 104, 8, 98] [5, 6])).map (fun t => (t.input, t.output, t.status.result)) =
      some (.scripted [6], .collecting [5, 8], some (.error (.invalidProgram .invalidOpcode))) ∧
    alongRun State.takenByStep 5 (fed [3, 0, 4, 0, 104, 8, 98] [5, 6]) = [5] ∧
    alongRun State.putByStep 5 (fed [3, 0, 4, 0, 104, 8, 98] [5, 6]) = [5, 8] := by decide

theorem witness_CollectedOutputIsNeverObserved :
    (stepsTo 1 { loaded [104, 5] with output := .collecting [9] }).map (fun t => t.output) = some (.collecting [9, 5]) := by decide

/-- Taken to index 0, and not taken under both values of `jump_target_eval`. -/
theorem witness_JumpIfTrueSetsPc : readVal (loaded [7]) (imm (-1)) = .ok (-1) ∧ (-1 : Int) ≠ 0 ∧
    readVal (loaded [7]) (imm 0) = .ok 0 ∧ ¬ (0 : Int) ≠ 0 ∧ readVal (eager (loaded [7])) (pos 0) = .ok 7 ∧
    (ended (.jumpIfTrue (imm (-1)) (imm 0)) (loaded [7])).map (fun t => t.pc) = some 0 ∧
    (ended (.jumpIfTrue (imm 0) (pos 1)) (loaded [7])).map (fun t => t.pc) = some 3 ∧
    (ended (.jumpIfTrue (imm 0) (pos 0)) (eager (loaded [7]))).map (fun t => t.pc) = some 3 := by decide
theorem witness_JumpIfFalseSetsPc : readVal (loaded [7]) (imm 0) = .ok 0 ∧ readVal (loaded [7]) (pos 0) = .ok 7 ∧
    (0 : Int) ≤ 7 ∧ ¬ (7 : Int) = 0 ∧ readVal (eager (loaded [7])) (imm (-1)) = .ok (-1) ∧
    (ended (.jumpIfFalse (imm 0) (pos 0)) (loaded [7])).map (fun t => t.pc) = some 7 ∧
    (ended (.jumpIfFalse (imm 1) (pos 1)) (loaded [7])).map (fun t => t.pc) = some 3 ∧
    (ended (.jumpIfFalse (pos 0) (imm (-1))) (eager (loaded [7]))).map (fun t => t.pc) = some 3 := by decide

theorem witness_JumpFaultsComeInOrder : readVal (loaded [7]) (pos 1) = .error (.outOfBounds 1) ∧
    readVal (loaded [7]) (pos 0) = .ok 7 ∧ readVal (loaded [7]) (pos 9) = .error (.outOfBounds 9) ∧ (7 : Int) ≠ 0 ∧
    (eager (loaded [7])).cfg.jumpTargetEval = .eager ∧ readVal (loaded [7]) (imm (-1)) = .ok (-1) ∧ (-1 : Int) < 0 ∧
    (ended (.jumpIfTrue (pos 1) (pos 9)) (loaded [7])).map (fun t => t.status) = some (.faulted ⟨0, .outOfBounds 1⟩) ∧
    (ended (.jumpIfTrue (pos 0) (pos 9)) (loaded [7])).map (fun t => t.status) = some (.faulted ⟨0, .outOfBounds 9⟩) ∧
    (ended (.jumpIfFalse (pos 0) (pos 9)) (eager (loaded [7]))).map (fun t => t.status) =
      some (.faulted ⟨0, .outOfBounds 9⟩) ∧
    (ended (.jumpIfFalse (imm 0) (imm (-1))) (loaded [7])).map (fun t => t.status) =
      some (.faulted ⟨0, .outOfBounds (-1)⟩) := by decide

theorem witness_LazyAndEagerDifferInOneCase : (loaded [105, 0, 3]).cfg.jumpTargetEval = .lazy ∧
    (ended (.jumpIfTrue (imm 0) (pos 3)) (loaded [105, 0, 3])).map (fun t => t.pc) = some 3 ∧
    (loaded [105, 0, 3]).mem.inBounds 3 = false ∧
    (ended (.jumpIfTrue (imm 0) (pos 2)) (loaded [105, 0, 2])).isSome = true := by decide

theorem witness_NonStoringFrame :
    [.output (imm 5), .jumpIfTrue (imm 1) (imm 0), .jumpIfFalse (imm 1) (imm 0), .halt, .input (pos 0)].all
      (fun i => (ended i (loaded [7])).isSome) = true := by decide

theorem witness_InputCompletionFrame : (waiting [3, 1] (pos 1) (.scripted [5])).mem.wf = true ∧
    (waiting [3, 1] (pos 1) (.scripted [5])).status = .awaitInput (pos 1) ∧
    (stepped (waiting [3, 1] (pos 1) (.scripted [5]))).isSome = true ∧
    writeAddr (waiting [3, 1] (pos 1) (.scripted [5])) (pos 1) = .ok 1 ∧
    writeAddr (waiting [3, 2] (pos 2) (.scripted [5])) (pos 2) = .error (.outOfBounds 2) ∧
    (stepped (waiting [3, 2] (pos 2) (.scripted [5]))).map (fun t => t.status) = some (.faulted ⟨0, .outOfBounds 2⟩) := by decide

theorem witness_StepRunsTheDecodedInstruction_decodes : (loaded [104, 5]).status = .running ∧
    (loaded [104, 5]).pc < (loaded [104, 5]).mem.size ∧ fetch (loaded [104, 5]) = .ok (.output (imm 5), 2) ∧
    fetch (loaded [98]) = .error .invalidOpcode := by decide
theorem witness_StepRunsTheDecodedInstruction_holds : (loaded [104, 5]).mem.holdsInstr 0 (.output (imm 5)) := by
  refine ⟨by decide, fun j h => ?_⟩
  match j, h with
  | 0, _ => rfl
  | 1, _ => rfl

theorem witness_RunningOffTheEndHalts : (loaded []).status = .running ∧ (loaded []).mem.size ≤ (loaded []).pc := by decide

theorem witness_DecodeFailureLeavesTheMachine : (loaded [98]).status = .running ∧ (loaded [98]).pc < (loaded [98]).mem.size ∧
    fetch (loaded [98]) = .error .invalidOpcode := by decide

theorem witness_TerminalStatesTakeNoStep : (∃ r, ((loaded []).haltWith .endOfMemory).status = .halted r) ∧
    ((loaded [4]).raise .ioError).status = .faulted ⟨0, .ioError⟩ ∧ (loaded []).status = .running ∧
    ∃ p, (waiting [3, 0] (pos 0) (.scripted [])).status = .awaitInput p :=
  ⟨⟨_, rfl⟩, rfl, rfl, _, rfl⟩

theorem witness_StatusTransitionsAreTheTable : (stepped (loaded [])).map (fun t => t.status) = some (.halted .endOfMemory) ∧
    (stepped (loaded [99])).map (fun t => t.status) = some (.halted .haltInstr) ∧
    (stepped (loaded [3, 0])).map (fun t => t.status) = some (.awaitInput (pos 0)) ∧
    (stepped (waiting [3, 0] (pos 0) (.scripted []))).map (fun t => t.status) = some (.faulted ⟨0, .inputExhausted⟩) ∧
    (stepped (waiting [3, 0] (pos 0) (.interactive 1 [.failure]))).map (fun t => t.status) = some (.faulted ⟨0, .ioError⟩) := by
  decide

theorem witness_FaultsArePrecise : (stepped (loaded [4, 2])).map (fun t => t.status) = some (.faulted ⟨0, .outOfBounds 2⟩) ∧
    (stepped (talking [104, 2] [.ioError])).map (fun t => (t.status, t.output)) =
      some (.faulted ⟨0, .ioError⟩, .interactive [] 1 []) := by decide

theorem witness_CompletedInstructionMovesPc : (loaded [7]).status = .running ∧
    (ended (.output (imm 5)) (loaded [7])).map (fun t => (t.pc, t.status)) = some (2, .running) ∧
    (ended (.jumpIfTrue (imm 1) (imm 0)) (loaded [7])).map (fun t => (t.pc, t.status)) = some (0, .running) := by decide

theorem witness_OnlyFiveInstructionsWriteMemory : (loaded [1101, 1, 1, 0]).mem.wf = true ∧
    (stepped (loaded [1101, 1, 1, 0])).map (fun t => t.mem.contents) = some [2, 1, 1, 0] ∧
    (stepped (waiting [3, 0] (pos 0) (.scripted [5]))).map (fun t => t.mem.contents) = some [5, 0] := by decide

/-- R111's example `1105,1,0`. -/
theorem witness_JumpToItselfNeverEnds : (loaded [1105, 1, 0]).status = .running ∧ (1 : Int) ≠ 0 ∧
    (loaded [1105, 1, 0]).mem.holdsInstr (loaded [1105, 1, 0]).pc (.jumpIfTrue (imm 1) (imm 0)) := by
  refine ⟨rfl, by decide, by decide, fun j h => ?_⟩
  match j, h with
  | 0, _ => rfl
  | 1, _ => rfl
  | 2, _ => rfl

theorem witness_RunUnderFuelIsReachingTheEnd : (runToEnd 1 (loaded [99])).map (fun t => t.status) =
    some (.halted .haltInstr) ∧ runToEnd 0 (loaded [99]) = none := by decide

theorem witness_StepKeepsTheInvariant_running : (loaded [1101, wmax, -1, 4, 99]).Inv ∧
    ∃ t, step (loaded [1101, wmax, -1, 4, 99]) = .next t :=
  ⟨⟨rfl, rfl, rfl, .inl (Nat.zero_le _), rfl, rfl, rfl⟩, _, rfl⟩
theorem witness_StepKeepsTheInvariant_waiting : (waiting [3, 1] (pos 1) (.scripted [wmin])).Inv ∧
    ∃ t, step (waiting [3, 1] (pos 1) (.scripted [wmin])) = .next t :=
  ⟨⟨rfl, rfl, rfl, .inl (Nat.zero_le _), rfl, rfl, rfl, rfl⟩, _, rfl⟩

theorem witness_EveryInvocationMeetsTheInvariant : [wmin, 0, wmax].all (isWord Config.default.width) = true ∧
    Config.default.canSupply [wmin, 0, wmax].length = true ∧ (InputChannel.scripted [wmax]).holdsWords 64 = true ∧
    (OutputChannel.collecting [wmin]).holdsWords 64 = true := by decide

theorem witness_ReinvocationIsANewReset : (loaded [7]).mem.wf = true ∧
    ((loaded [7]).haltWith .haltInstr).status.terminal = true := by decide

theorem witness_LoaderReadsBackProgramText : [wmin, wmax] ≠ [] ∧ [wmin, wmax].all (isWord 64) = true ∧
    programText [1, -2] = ['1', ',', '-', '2'] := by decide

theorem witness_LoaderGivesWordsOrFails : parseProgram 64 ['1', ',', '2'] = .ok [1, 2] ∧
    ∃ token ∈ tokensOf ['1', ','], parseInteger 64 token = none := by decide

/-- The program `104,7` outputs 7 and runs off the end; the empty program outputs nothing; no fuel, no end. -/
theorem witness_StagesRunInSequence : runOrdering 2 Config.default [104, 7] [0] = .score 7 ∧
    runOrdering 2 Config.default [] [0] = .failed 0 .noOutput ∧
    runOrdering 0 Config.default [104, 7] [0] = .notEnded 0 := by decide
/-- The program `3,0,4,0` outputs the first input, the phase 4, and so not the stage input 9; `104,1,104,7` outputs 1, then 7. -/
theorem witness_StagesRunInSequence_output : runStage 5 Config.default [3, 0, 4, 0] 4 9 = .output 4 ∧
    runStage 3 Config.default [104, 1, 104, 7] 0 0 = .output 7 ∧
    (execute 3 Config.default [104, 1, 104, 7] (.scripted [0, 0]) (.collecting [])).map
      (fun t => (t.status.result.isSome, t.output)) = some (true, .collecting ([1] ++ [7])) := by decide
theorem witness_StagesRunInSequence_failures : runStage 1 Config.default [] 0 0 = .failed .noOutput ∧
    runStage 1 Config.default [98] 0 0 = .failed (.invalidProgram .invalidOpcode) ∧
    runStage 0 Config.default [99] 0 0 = .notEnded := by decide

theorem witness_SearchGivesTheMaximum : 0 < 1 ∧ [[0]].Perm (orderings 1) ∧
    search 2 Config.default [104, 7] 1 = .best 7 := by decide

theorem witness_PseudoInstructionsExpand : (loaded [7, 8]).mem.wf = true ∧ readVal (loaded [7, 8]) (pos 1) = .ok 8 ∧
    isWord 64 8 = true ∧ (0 : Int) ≤ 1 ∧ (1 : Int) < ((loaded [7, 8]).mem.size : Int) ∧
    readVal (loaded [7, 8]) (imm wmin) = .ok (wordMin 64) := by decide

end Sys2Proof.Tests
end

section
/-! PROOF. The write of one memory cell (20_memory.md R53). -/

namespace Sys2Proof.Machine

/-- The bounds check fails exactly outside `0..N-1`. -/
theorem Memory.inBounds_eq_false_iff (m : Memory) (a : Int) : m.inBounds a = false ↔ a < 0 ∨ (m.size : Int) ≤ a := by
  rw [← Bool.not_eq_true, Memory.inBounds_iff]
  omega

/-- A write below `N` stores the Word in that one cell. -/
theorem Memory.stored_poke {m : Memory} (h : m.wf = true) {a : Nat} (ha : a < m.size) (v : Int) :
    m.Stored (m.poke a v) a v where
  size := Memory.poke_size m a v
  written := Memory.peek_poke_same h a v
  others _ hx := Memory.peek_poke_other h hx v
  canonical := Memory.wf_poke h ha v

/-- Settles O9: by `memWrite_eq_error` outside `0..N-1`, and by `memWrite_eq_ok` and `Memory.stored_poke` inside. -/
theorem memWriteChangesOneCellOrFaults : Obligations.MemWriteChangesOneCellOrFaults := by
  intro s a v hwf
  constructor
  · intro hout
    have hb : s.mem.inBounds a = false := (s.mem.inBounds_eq_false_iff a).2 hout
    exact ⟨memWrite_eq_error.2 ⟨hb, rfl⟩, State.raise_mem s _⟩
  · intro h0 hN
    have hb : s.mem.inBounds a = true := (s.mem.inBounds_iff a).2 ⟨h0, hN⟩
    obtain ⟨-, hlt, -⟩ := Memory.inBounds_toNat hb
    exact ⟨s.mem.poke a.toNat v, memWrite_eq_ok.2 ⟨hb, rfl⟩, Memory.stored_poke hwf hlt v⟩

end Sys2Proof.Machine
end

section
/-! PROOF. What the decoder answers on each view, and the failures of the fetch (30_encoding.md R76, R77, R81, R86). -/

namespace Sys2Proof

/-! ## The kind an instruction word selects -/

/-- Of the two-digit opcodes the map leaves out 0 and 9 to 98 (R74, R76). -/
theorem kindOfOpcode_eq_none_iff {op : Nat} (h : op < 100) : kindOfOpcode op = none ↔ op = 0 ∨ (9 ≤ op ∧ op ≤ 98) := by
  have hrows : kindOfOpcode op = none ↔ ∀ row ∈ opMap, op ≠ row.1 := by
    simp [kindOfOpcode, List.lookup_eq_none_iff]
  rw [hrows]
  simp only [opMap, List.forall_mem_cons, List.not_mem_nil, false_implies, implies_true, and_true]
  omega

/-- A word that is not negative selects a kind by `w mod 100` alone (R76). -/
theorem kindOfWord_of_nonneg {w : Int} (h : 0 ≤ w) : kindOfWord w = kindOfOpcode (w.toNat % 100) :=
  if_neg (Int.not_lt.2 h)

/-- The kind a word selects is the one the map gives for `w mod 100`. -/
theorem kindOfOpcode_of_kindOfWord {w : Int} {kind : Kind} (h : kindOfWord w = some kind) :
    kindOfOpcode (w.toNat % 100) = some kind := by
  have hw : 0 ≤ w := by
    by_contra hneg
    rw [kindOfWord, if_pos (Int.not_le.1 hneg)] at h
    cases h
  rw [← kindOfWord_of_nonneg hw, h]

/-! ## The answers of the decoder -/

/-- As many modes are read as the kind has parameters (R71). -/
theorem length_modesOf {w k : Nat} {modes : List Mode} (h : modesOf w k = some modes) : modes.length = k := by
  unfold modesOf at h
  split at h
  · cases h
  next ms hms =>
    split at h
    · cases h
      exact length_modesFrom hms
    · cases h

/-- With enough Words after it, a word with legal mode digits decodes to an instruction of its kind (R82). -/
theorem exists_decode_eq_ok {w : Int} {rest : List Int} {kind : Kind} {modes : List Mode} (hk : kindOfWord w = some kind)
    (hm : modesOf w.toNat kind.paramCount = some modes) (hl : kind.paramCount ≤ rest.length) :
    ∃ i, i.kind = kind ∧ decode (w :: rest) = .ok (i, 1 + kind.paramCount) := by
  have hps : (List.zipWith Param.mk rest modes).length = kind.paramCount := by
    rw [List.length_zipWith, length_modesOf hm, Nat.min_eq_right hl]
  obtain ⟨i, hb⟩ := build_isSome hps
  obtain ⟨rfl, hp⟩ := build_eq_some.1 hb
  exact ⟨i, rfl, decode_eq_ok.2 ⟨w, rest, modes, rfl, hk, hm, hl, hp, rfl⟩⟩

/-- Everything the decoder can answer on a view that is not empty, in the order of its checks (R80, R82). -/
theorem decode_cons_cases (w : Int) (rest : List Int) :
    (kindOfWord w = none ∧ decode (w :: rest) = .error .invalidOpcode) ∨
    ∃ kind, kindOfWord w = some kind ∧
      ((modesOf w.toNat kind.paramCount = none ∧ decode (w :: rest) = .error .invalidAddressingMode) ∨
      ∃ modes, modesOf w.toNat kind.paramCount = some modes ∧
        ((rest.length < kind.paramCount ∧ decode (w :: rest) = .error .unexpectedEnd) ∨
        (kind.paramCount ≤ rest.length ∧ ∃ i, i.kind = kind ∧ decode (w :: rest) = .ok (i, 1 + kind.paramCount)))) := by
  cases hk : kindOfWord w with
  | none => exact .inl ⟨rfl, by simp only [decode, hk]⟩
  | some kind =>
    refine .inr ⟨kind, rfl, ?_⟩
    cases hm : modesOf w.toNat kind.paramCount with
    | none => exact .inl ⟨rfl, by simp only [decode, hk, hm]⟩
    | some modes =>
      refine .inr ⟨modes, rfl, ?_⟩
      rcases Nat.lt_or_ge rest.length kind.paramCount with hl | hl
      · exact .inl ⟨hl, by simp only [decode, hk, hm, if_pos hl]⟩
      · exact .inr ⟨hl, exists_decode_eq_ok hk hm hl⟩

/-- `InvalidOpcode` is the answer exactly where the word selects no kind (R76). -/
theorem decode_eq_invalidOpcode_iff {w : Int} {rest : List Int} :
    decode (w :: rest) = .error .invalidOpcode ↔ kindOfWord w = none := by
  rcases decode_cons_cases w rest with ⟨hk, hd⟩ | ⟨kind, hk, ⟨-, hd⟩ | ⟨modes, -, ⟨-, hd⟩ | ⟨-, i, -, hd⟩⟩⟩ <;>
    simp [hk, hd]

/-- `UnexpectedEnd` is the answer exactly where kind and mode digits are legal and too few Words follow (R77). -/
theorem decode_eq_unexpectedEnd_iff {w : Int} {rest : List Int} {kind : Kind} (hk : kindOfWord w = some kind) :
    decode (w :: rest) = .error .unexpectedEnd ↔
      (∃ modes, modesOf w.toNat kind.paramCount = some modes) ∧ rest.length < kind.paramCount := by
  rcases decode_cons_cases w rest with ⟨hk', -⟩ | ⟨kind', hk', hcases⟩
  · rw [hk] at hk'; cases hk'
  · obtain rfl : kind = kind' := Option.some.inj (hk.symm.trans hk')
    rcases hcases with ⟨hm, hd⟩ | ⟨modes, hm, ⟨hl, hd⟩ | ⟨hl, i, -, hd⟩⟩
    · simp [hm, hd]
    · simp [hm, hd, hl]
    · simp [hd, hl]

/-- A decoded instruction has the kind its word selects, and the length `1 + k` of that kind (R86). -/
theorem kind_of_decode_eq_ok {w : Int} {rest : List Int} {i : Instr} {len : Nat} (h : decode (w :: rest) = .ok (i, len)) :
    kindOfWord w = some i.kind ∧ len = 1 + i.kind.paramCount := by
  obtain ⟨_, _, _, hview, hk, -, -, -, hlen⟩ := decode_eq_ok.1 h
  rw [(List.cons.inj hview).1]
  exact ⟨hk, hlen⟩

/-- Settles O4: by `decode_eq_invalidOpcode_iff` and the opcodes the map leaves out. -/
theorem invalidOpcodeIsTheUnlistedOpcodes : Obligations.InvalidOpcodeIsTheUnlistedOpcodes := by
  intro w rest hw
  rw [decode_eq_invalidOpcode_iff, kindOfWord_of_nonneg hw]
  exact kindOfOpcode_eq_none_iff (Nat.mod_lt _ (by decide))

/-- Settles O7: both kinds are the one the map gives for `w mod 100`, and a kind fixes the length. -/
theorem lengthFollowsFromTheOpcode : Obligations.LengthFollowsFromTheOpcode := by
  intro w w' rest rest' i i' len len' h h' hmod
  obtain ⟨hk, hlen⟩ := kind_of_decode_eq_ok h
  obtain ⟨hk', hlen'⟩ := kind_of_decode_eq_ok h'
  have hkind : i.kind = i'.kind := by
    have hop := kindOfOpcode_of_kindOfWord hk
    rw [hmod, kindOfOpcode_of_kindOfWord hk'] at hop
    exact (Option.some.inj hop).symm
  exact ⟨hlen, by rw [hlen', hlen, hkind]⟩

end Sys2Proof

namespace Sys2Proof.Machine

/-! ## The fetch -/

/-- Below `N` the fetch decodes `M[pc]` and the Words after it. -/
theorem fetch_eq_decode_cons {s : State} (h : s.pc < s.mem.size) :
    fetch s = decode (s.mem.peek s.pc :: s.mem.view (s.pc + 1) 3) := by
  rw [fetch, longestInstr, Memory.view_eq_cons s.mem h]

/-- Three Words after the first are enough to tell `N - pc - 1 < k`, because no kind has more parameters (R72, R77). -/
theorem Memory.length_view_lt_paramCount_iff (m : Memory) {pc : Nat} (h : pc < m.size) (kind : Kind) :
    (m.view (pc + 1) 3).length < kind.paramCount ↔ (m.size : Int) - pc - 1 < kind.paramCount := by
  have hk := Laws.EncodedLength.paramCount_le kind
  rw [Memory.length_view]
  omega

/-- A fetch that fails makes the step raise `InvalidProgram` with its sub-kind (R102). -/
theorem step_of_fetch_eq_error {s : State} {x : DecodeError} (hrun : s.status = .running) (hpc : s.pc < s.mem.size)
    (hf : fetch s = .error x) : step s = .next (s.raise (.invalidProgram x (s.mem.peek s.pc))) := by
  rcases step_running_cases hrun with ⟨hend, -⟩ | ⟨-, y, hy, hstep⟩ | ⟨-, i, len, hok, -⟩
  · exact absurd hpc (Nat.not_lt.2 hend)
  · rw [hf] at hy
    cases hy
    exact hstep
  · rw [hf] at hok
    cases hok

/-- Settles O5: by `decode_eq_unexpectedEnd_iff` on the Words from `pc`; HALT has no parameter to miss. -/
theorem unexpectedEndIsTooFewWords : Obligations.UnexpectedEndIsTooFewWords := by
  intro s hpc
  rw [fetch_eq_decode_cons hpc]
  constructor
  · intro i hi
    have hk : kindOfWord (s.mem.peek s.pc) = some i.kind := by rw [hi]; exact kindOfWord_word i
    have hm : ∃ modes, modesOf (s.mem.peek s.pc).toNat i.kind.paramCount = some modes := by
      rw [hi]; exact ⟨_, modesOf_word i⟩
    rw [decode_eq_unexpectedEnd_iff hk, and_iff_right hm]
    exact s.mem.length_view_lt_paramCount_iff hpc i.kind
  · intro hk h
    obtain ⟨-, hl⟩ := (decode_eq_unexpectedEnd_iff hk).1 h
    exact Nat.not_lt_zero _ hl

/-- Settles O42: the step is `State.raise`, which changes the status and the latch only. -/
theorem decodeFailureLeavesTheMachine : Obligations.DecodeFailureLeavesTheMachine := by
  intro s x hrun hpc hf
  exact ⟨_, step_of_fetch_eq_error hrun hpc hf, State.raise_mem s _, State.raise_pc s _, State.raise_input s _,
    State.raise_output s _, rfl⟩

end Sys2Proof.Machine
end

section
/-! PROOF. The answers of the channels and what the I/O instructions make of them (44_channels.md R193, R194, R200). -/

namespace Sys2Proof.Machine

/-! ## A failing channel -/

/-- `Exhausted` ends a waiting IN in `InputExhausted`; the channel is the one the transaction left (R200). -/
theorem completeInput_of_exhausted {d : Param} {s : State} {ch : InputChannel}
    (h : s.input.take s.cfg.width = some (.exhausted, ch)) :
    completeInput d s = State.raise .inputExhausted { s with input := ch } := by
  rw [completeInput, h]

/-- `IOError` ends a waiting IN in `IOError`; the channel is the one the transaction left (R200). -/
theorem completeInput_of_ioError {d : Param} {s : State} {ch : InputChannel}
    (h : s.input.take s.cfg.width = some (.ioError, ch)) :
    completeInput d s = State.raise .ioError { s with input := ch } := by
  rw [completeInput, h]

/-- A `Put` that answers `IOError` is raised by the OUT that made it (R200). -/
theorem exec_output_of_put_ioError {p : Param} {s : State} {v : Int} {ch : OutputChannel} (hv : readVal s p = .ok v)
    (hput : s.output.put v = (.ioError, ch)) :
    exec (.output p) s = .next (State.raise .ioError { s with output := ch }) := by
  have hraise : putValue v s = State.raise .ioError { s with output := ch } := by rw [putValue, hput]
  rw [← hraise, exec, execOutput, hv]
  rfl

/-- Settles O22: each failure is one `State.raise` on the state whose channel is what the transaction left. -/
theorem channelFailuresBecomeErrors : Obligations.ChannelFailuresBecomeErrors := by
  refine ⟨fun p s ch hwait => ⟨fun hexh => ?_, fun herr => ?_⟩, fun p s v ch hv hput => ?_⟩
  · exact ⟨_, step_awaitInput hwait, by rw [completeInput_of_exhausted hexh]; exact ⟨rfl, rfl⟩⟩
  · exact ⟨_, step_awaitInput hwait, by rw [completeInput_of_ioError herr]; exact ⟨rfl, rfl⟩⟩
  · exact ⟨_, exec_output_of_put_ioError hv hput, rfl, rfl⟩

/-! ## A channel that always answers -/

/-- The one channel without an answer is an Interactive one whose console has given no event (R195). -/
theorem InputChannel.take_eq_none_iff {width : Nat} {ch : InputChannel} :
    ch.take width = none ↔ ∃ prompts, ch = .interactive prompts [] := by
  cases ch with
  | scripted queue => cases queue <;> simp [InputChannel.take]
  | scriptedText text => cases h : takeLine text <;> simp [InputChannel.take, h]
  | interactive prompts pending => cases pending <;> simp [InputChannel.take]

/-- Once the channel answers, the IN is over: it completed, or it faulted (R150). -/
theorem completeInput_ends {d : Param} {s : State} (h : s.input.take s.cfg.width ≠ none) :
    ((completeInput d s).status = .running ∧ (completeInput d s).pc = s.pc + 2) ∨
      ∃ record, (completeInput d s).status = .faulted record := by
  rcases completeInput_cases d s with ⟨hnone, -⟩ | ⟨v, ch, -, -, he⟩ | ⟨v, ch, -, -, he⟩ | ⟨ch, -, he⟩ | ⟨ch, -, he⟩
  · exact absurd hnone h
  · exact .inl ⟨by rw [he], by rw [he]⟩
  all_goals exact .inr ⟨_, by rw [he, State.raise_status]⟩

/-- Settles O24: the issued `Take` of a Scripted channel has an answer (`InputChannel.take_eq_none_iff`), which ends the IN. -/
theorem scriptedInputNeverBlocks : Obligations.ScriptedInputNeverBlocks := by
  intro p s hscripted
  refine ⟨{ s with status := .awaitInput p, input := s.input.prompted }, _, rfl, step_awaitInput rfl, completeInput_ends ?_⟩
  rw [ne_eq, InputChannel.take_eq_none_iff]
  rcases hscripted with ⟨queue, h⟩ | ⟨text, h⟩ <;> simp [h, InputChannel.prompted]

/-! ## The order of the values -/

/-- A transaction that is answered gives its answer first, then those of the channel it left. -/
theorem InputChannel.answers_succ_of_take {width n : Nat} {ch rest : InputChannel} {answer : TakeAnswer}
    (h : ch.take width = some (answer, rest)) : ch.answers width (n + 1) = answer :: rest.answers width n := by
  rw [InputChannel.answers, h]

/-- An empty queue answers `Exhausted` every time (R193). -/
theorem InputChannel.answers_scripted_nil (width k : Nat) :
    (InputChannel.scripted []).answers width k = List.replicate k .exhausted := by
  induction k with
  | zero => rfl
  | succ k ih => rw [InputChannel.answers_succ_of_take rfl, ih, List.replicate_succ]

/-- The values of a queue come first and in order; what follows is answered by the empty queue (R193). -/
theorem InputChannel.answers_scripted_add (width k : Nat) (queue : List Int) :
    (InputChannel.scripted queue).answers width (queue.length + k) =
      queue.map .value ++ (InputChannel.scripted []).answers width k := by
  induction queue with
  | nil => rw [List.length_nil, Nat.zero_add]; rfl
  | cons v queue ih =>
    rw [List.length_cons, Nat.add_right_comm, InputChannel.answers_succ_of_take rfl, ih]
    rfl

/-- Settles O25: by induction on the queue, then on the number of transactions on the empty one. -/
theorem scriptedQueueIsConsumedInOrder : Obligations.ScriptedQueueIsConsumedInOrder := by
  intro width k queue
  refine ⟨?_, rfl⟩
  rw [InputChannel.answers_scripted_add, InputChannel.answers_scripted_nil]

end Sys2Proof.Machine
end

section
/-! PROOF. The generator of the orderings (45_pipeline.md R210). It builds the lists in the way of Mathlib's
`List.permutations'`, so what the library proves of the permutations of a list holds of the orderings. -/

namespace Sys2Proof.Machine

/-- The insertions of `x` are those by which Mathlib's `List.permutations'` adds an element. -/
theorem insertions_eq_permutations'Aux (x : Nat) (l : List Nat) : insertions x l = l.permutations'Aux x := by
  induction l with
  | nil => rfl
  | cons y ys ih => rw [insertions, List.permutations'Aux, ih]

/-- The generator adds `n-1` last, where `List.permutations'` adds the head last: it permutes the reversed range. -/
theorem orderings_eq_permutations' (n : Nat) : orderings n = (List.range n).reverse.permutations' := by
  induction n with
  | zero => rfl
  | succ n ih =>
    have hinsert : insertions n = List.permutations'Aux n := funext (insertions_eq_permutations'Aux n)
    rw [orderings, ih, hinsert, List.range_succ, List.reverse_concat, List.permutations']

/-- Up to their order, which R211 leaves open, the orderings are the library's permutations of `0..n-1`. -/
theorem orderings_perm_permutations (n : Nat) : (orderings n).Perm (List.range n).permutations := by
  rw [orderings_eq_permutations']
  exact (List.permutations_perm_permutations' _).symm.trans (List.reverse_perm _).permutations

/-- Settles O57: the number, the distinctness and the members of the permutations of `0..n-1`, read through
`orderings_perm_permutations`. -/
theorem orderingsAreThePermutations : Obligations.OrderingsAreThePermutations := by
  intro n
  have hperm := orderings_perm_permutations n
  refine ⟨?_, ?_, fun phases => ?_⟩
  · rw [hperm.length_eq, List.length_permutations, List.length_range]
  · exact hperm.nodup_iff.2 (List.nodup_permutations _ List.nodup_range)
  · rw [hperm.mem_iff, List.mem_permutations]

end Sys2Proof.Machine
end

section
/-! PROOF. The reset of an invocation and the implicit halt of an empty image (70_reset_and_hazards.md R260, 40_engine.md R101). -/

namespace Sys2Proof.Machine

/-- Running at or past the end of memory is the implicit halt (R101): a step that fetches needs `pc` below `N`. -/
theorem step_of_size_le_pc {s : State} (hrun : s.status = .running) (hend : s.mem.size ≤ s.pc) :
    step s = .next (s.haltWith .endOfMemory) := by
  rcases step_running_cases hrun with ⟨-, hstep⟩ | ⟨hpc, -⟩ | ⟨hpc, -⟩
  · exact hstep
  · exact absurd hpc (Nat.not_lt.2 hend)
  · exact absurd hpc (Nat.not_lt.2 hend)

/-- Settles O53: memory is read back by `Memory.contents_ofImage`, the other components are the fields `resetWith` sets, and
`pc = 0` is past the end of an empty image (`step_of_size_le_pc`). -/
theorem resetLoadsTheImage : Obligations.ResetLoadsTheImage := by
  intro cfg image input output
  have hhalt : step (resetWith cfg [] input output) = .next ((resetWith cfg [] input output).haltWith .endOfMemory) :=
    step_of_size_le_pc rfl (Nat.le_refl 0)
  exact ⟨Memory.contents_ofImage image, Memory.ofImage_size image, rfl, rfl, rfl, rfl, rfl, _, hhalt, State.haltWith_status _ _⟩

end Sys2Proof.Machine
end

section
/-! PROOF. The round trips between instructions and their Words, the table of instruction words, and the decode failures
(30_encoding.md R70, R71, R75, R78 to R80, R82). -/

namespace Sys2Proof

/-! ## Decoding what was encoded -/

/-- Raw values and modes read in step give the parameters back, whatever Words follow the raw values. -/
theorem zipWith_raw_mode (ps : List Param) (rest : List Int) :
    List.zipWith Param.mk (ps.map Param.raw ++ rest) (ps.map Param.mode) = ps := by
  induction ps with
  | nil => simp
  | cons p ps ih => simp [ih]

/-- Settles O1: the word selects kind and modes (`kindOfWord_word`, `modesOf_word`), and the parameter words the raw values. -/
theorem decodeGivesBackTheEncodedInstruction : Obligations.DecodeGivesBackTheEncodedInstruction := by
  intro i rest
  have hlen : i.kind.paramCount ≤ (i.params.map Param.raw ++ rest).length := by
    rw [List.length_append, List.length_map, length_params]
    exact Nat.le_add_right _ _
  exact decode_eq_ok.2
    ⟨i.word, _, _, rfl, kindOfWord_word i, modesOf_word i, hlen, (zipWith_raw_mode i.params rest).symm, rfl⟩

/-- Settles O8: each row is one evaluation of the decoder. -/
theorem sampleWordsDecodeAsTheSpecSays : Obligations.SampleWordsDecodeAsTheSpecSays := by
  refine ⟨?_, ?_, ?_, ?_, ?_, ?_⟩ <;> decide

/-! ## Encoding what was decoded -/

/-- The digits read as modes are the word's digits at their places: what is left is the part of the word above them. -/
theorem modeDigits_of_modesFrom {w : Nat} {ps : List Param} : ∀ {k : Nat},
    modesFrom w k ps.length = some (ps.map Param.mode) →
      10 ^ k * (w / 10 ^ k) = modeDigits (10 ^ k) ps + 10 ^ (k + ps.length) * (w / 10 ^ (k + ps.length)) := by
  induction ps with
  | nil => intro k _; simp [modeDigits]
  | cons p ps ih =>
    intro k h
    rw [List.length_cons, modesFrom] at h
    split at h
    next m ms hm hms =>
      obtain ⟨rfl, rfl⟩ := List.cons.inj (Option.some.inj h)
      have hrest := ih hms
      have hdigit : w / 10 ^ k % 10 = p.mode.digit := modeOfDigit_eq_some hm
      have hsplit : w / 10 ^ k = 10 * (w / 10 ^ (k + 1)) + p.mode.digit := by
        rw [← hdigit, pow_succ, ← Nat.div_div_eq_div_mul, Nat.div_add_mod]
      rw [Nat.add_right_comm, Nat.add_assoc, ← List.length_cons (a := p)] at hrest
      rw [modeDigits, hsplit, Nat.mul_add, ← Nat.mul_assoc, ← pow_succ, hrest, ← pow_succ']
      ring
    next => cases h

/-- Where all digits of a word are read as modes, the word is `w mod 100` and those digits. -/
theorem eq_mod_add_modeDigits {w : Nat} {ps : List Param} (h : modesOf w ps.length = some (ps.map Param.mode)) :
    w = w % 100 + modeDigits 100 ps := by
  unfold modesOf at h
  split at h
  · cases h
  next ms hms =>
    split at h
    next htop =>
      cases h
      have hdigits := modeDigits_of_modesFrom hms
      rw [htop, Nat.mul_zero, Nat.add_zero] at hdigits
      exact (Nat.mod_add_div w 100).symm.trans (congrArg (w % 100 + ·) hdigits)
    next => cases h

/-- The opcode in a word that selects a kind. -/
theorem toNat_mod_of_kindOfWord {w : Int} {kind : Kind} (h : kindOfWord w = some kind) : w.toNat % 100 = kind.opcode :=
  kindOfOpcode_eq_some (kindOfOpcode_of_kindOfWord h)

/-- A word that selects a kind is not negative (R79). -/
theorem nonneg_of_kindOfWord {w : Int} {kind : Kind} (h : kindOfWord w = some kind) : 0 ≤ w := by
  by_contra hneg
  rw [kindOfWord, if_pos (Int.not_le.1 hneg)] at h
  cases h

/-- The word that selects an instruction's kind and modes is its instruction word: no digit is left over. -/
theorem eq_word {w : Int} {i : Instr} (hk : kindOfWord w = some i.kind)
    (hm : modesOf w.toNat i.kind.paramCount = some (i.params.map Param.mode)) : w = i.word := by
  rw [← length_params] at hm
  have hw := eq_mod_add_modeDigits hm
  rw [toNat_mod_of_kindOfWord hk] at hw
  rw [← Int.toNat_of_nonneg (nonneg_of_kindOfWord hk), hw]
  rfl

/-- The parameters read from raw values and modes have those modes, if there are enough raw values. -/
theorem map_mode_zipWith {rest : List Int} {modes : List Mode} (h : modes.length ≤ rest.length) :
    (List.zipWith Param.mk rest modes).map Param.mode = modes := by
  rw [List.map_zipWith]
  induction modes generalizing rest with
  | nil => simp
  | cons m modes ih =>
    cases rest with
    | nil => simp at h
    | cons v rest => simpa using ih (by simpa using h)

/-- The parameters read from raw values and modes have the first raw values. -/
theorem map_raw_zipWith {rest : List Int} {modes : List Mode} :
    (List.zipWith Param.mk rest modes).map Param.raw = rest.take modes.length := by
  rw [List.map_zipWith]
  induction modes generalizing rest with
  | nil => simp
  | cons m modes ih =>
    cases rest with
    | nil => simp
    | cons v rest => simpa using ih

/-- A view that decodes begins with the instruction word and the raw values of what it decodes to. -/
theorem view_of_decode_eq_ok {w : Int} {rest : List Int} {i : Instr} {len : Nat} (h : decode (w :: rest) = .ok (i, len)) :
    w = i.word ∧ rest.take i.kind.paramCount = i.params.map Param.raw := by
  obtain ⟨w', rest', modes, hview, hk, hm, hl, hp, -⟩ := decode_eq_ok.1 h
  obtain ⟨rfl, rfl⟩ := List.cons.inj hview
  have hlen : modes.length = i.kind.paramCount := length_modesOf hm
  refine ⟨eq_word hk ?_, ?_⟩
  · rw [hp, map_mode_zipWith (by rw [hlen]; exact hl), hm]
  · rw [hp, map_raw_zipWith, hlen]

/-- Settles O2: by `view_of_decode_eq_ok`, Word by Word. -/
theorem decodedViewIsTheEncoding : Obligations.DecodedViewIsTheEncoding := by
  intro view i len h
  obtain ⟨w, rest, -, rfl, -, -, -, -, hlen⟩ := decode_eq_ok.1 h
  obtain ⟨hw, hraw⟩ := view_of_decode_eq_ok h
  refine ⟨hlen, ?_⟩
  rw [hlen, Instr.length, Nat.add_comm, List.take_succ_cons, hraw, hw, encode]

/-! ## The table of instruction words -/

/-- Every instruction word stands in its kind's row of the table, whatever the modes (R75). -/
theorem word_mem_legalWords (i : Instr) : ∃ row ∈ legalWords, row.1 = i.kind ∧ i.word ∈ row.2 := by
  have one : ∀ (k : Kind) (m : Mode), k.paramCount = 1 →
      ∃ row ∈ legalWords, row.1 = k ∧ ((k.opcode + modeDigits 100 [⟨0, m⟩] : Nat) : Int) ∈ row.2 := by
    intro k m; cases k <;> cases m <;> decide
  have two : ∀ (k : Kind) (m n : Mode), k.paramCount = 2 →
      ∃ row ∈ legalWords, row.1 = k ∧ ((k.opcode + modeDigits 100 [⟨0, m⟩, ⟨0, n⟩] : Nat) : Int) ∈ row.2 := by
    intro k m n; cases k <;> cases m <;> cases n <;> decide
  have three : ∀ (k : Kind) (m n o : Mode), k.paramCount = 3 →
      ∃ row ∈ legalWords, row.1 = k ∧ ((k.opcode + modeDigits 100 [⟨0, m⟩, ⟨0, n⟩, ⟨0, o⟩] : Nat) : Int) ∈ row.2 := by
    intro k m n o; cases k <;> cases m <;> cases n <;> cases o <;> decide
  cases i with
  | add a b dst => exact three .add a.mode b.mode dst.mode rfl
  | multiply a b dst => exact three .multiply a.mode b.mode dst.mode rfl
  | input dst => exact one .input dst.mode rfl
  | output src => exact one .output src.mode rfl
  | jumpIfTrue cond target => exact two .jumpIfTrue cond.mode target.mode rfl
  | jumpIfFalse cond target => exact two .jumpIfFalse cond.mode target.mode rfl
  | lessThan a b dst => exact three .lessThan a.mode b.mode dst.mode rfl
  | equals a b dst => exact three .equals a.mode b.mode dst.mode rfl
  | halt => decide

/-- Every word of the table selects its row's kind and has legal mode digits. -/
theorem legalWords_select : ∀ row ∈ legalWords, ∀ w ∈ row.2,
    kindOfWord w = some row.1 ∧ (modesOf w.toNat row.1.paramCount).isSome = true := by decide

/-- Settles O3: a decoded word is its instruction's (`word_mem_legalWords`), and a word of the table passes every check of the
decoder (`legalWords_select`), the three Words after it being enough. -/
theorem legalInstructionWordsAreTheTable : Obligations.LegalInstructionWordsAreTheTable := by
  refine ⟨by decide, fun w rest kind hrest => ⟨?_, ?_⟩⟩
  · rintro ⟨i, len, hd, rfl⟩
    rw [(view_of_decode_eq_ok hd).1]
    exact word_mem_legalWords i
  · rintro ⟨row, hrow, rfl, hw⟩
    obtain ⟨hk, hm⟩ := legalWords_select row hrow w hw
    obtain ⟨modes, hm⟩ := Option.isSome_iff_exists.1 hm
    have hl : row.1.paramCount ≤ rest.length := Nat.le_trans (Laws.EncodedLength.paramCount_le row.1) hrest
    obtain ⟨i, hi, hd⟩ := exists_decode_eq_ok hk hm hl
    exact ⟨i, _, hd, hi⟩

/-! ## The failures in order -/

/-- The modes cannot be read exactly where a mode digit is above 1 or a digit stands above the last mode digit (R78, R79). -/
theorem modesOf_eq_none_iff {w k : Nat} :
    modesOf w k = none ↔ (∃ j, j < k ∧ 2 ≤ digit w (2 + j)) ∨ w / 10 ^ (2 + k) ≠ 0 := by
  rw [modesOf, ← modesFrom_eq_none]
  cases modesFrom w 2 k with
  | none => simp
  | some ms => simp

/-- A negative word selects no kind (R79). -/
theorem kindOfWord_of_neg {w : Int} (h : w < 0) : kindOfWord w = none := if_pos h

/-- Settles O6: `decode_cons_cases` gives the answers in the order of the checks, `modesOf_eq_none_iff` the second check. -/
theorem decodeFailuresComeInOrder : Obligations.DecodeFailuresComeInOrder := by
  refine ⟨fun w rest hw => decode_eq_invalidOpcode_iff.2 (kindOfWord_of_neg hw), fun w rest kind hk => ?_⟩
  rw [← modesOf_eq_none_iff]
  rcases decode_cons_cases w rest with ⟨hk', -⟩ | ⟨kind', hk', hcases⟩
  · rw [hk] at hk'; cases hk'
  obtain rfl : kind = kind' := Option.some.inj (hk.symm.trans hk')
  rcases hcases with ⟨hm, hd⟩ | ⟨modes, hm, ⟨hl, hd⟩ | ⟨hl, i, hi, hd⟩⟩
  · exact ⟨fun _ => hd, fun hne => absurd hm hne⟩
  all_goals
    have hsome : modesOf w.toNat kind.paramCount ≠ none := by rw [hm]; exact Option.some_ne_none modes
    refine ⟨fun hnone => absurd hnone hsome, fun _ => ?_⟩
  · exact ⟨fun _ => hd, fun hge => absurd hl (Nat.not_lt.2 hge)⟩
  · exact ⟨fun hlt => absurd hlt (Nat.not_lt.2 hl), fun _ => ⟨i, hd, hi⟩⟩

end Sys2Proof
end

section
/-! PROOF. What a step can do, and the invariant every step keeps (10_state.md R21 to R29, 40_engine.md R100 to R104). -/

namespace Sys2Proof.Machine

/-! ## One step, by its four rows -/

/-- Everything a step that answers can be: the implicit halt, a decode failure, an instruction, or the completion of an IN. -/
theorem step_cases {s t : State} (h : step s = .next t) :
    (s.status = .running ∧ s.mem.size ≤ s.pc ∧ t = s.haltWith .endOfMemory) ∨
    (s.status = .running ∧ s.pc < s.mem.size ∧ ∃ x, fetch s = .error x ∧
      t = s.raise (.invalidProgram x (s.mem.peek s.pc))) ∨
    (s.status = .running ∧ s.pc < s.mem.size ∧ ∃ i, fetch s = .ok (i, i.length) ∧
      exec i (s.latched i i.length) = .next t) ∨
    ∃ d, s.status = .awaitInput d ∧ t = completeInput d s := by
  cases hs : s.status with
  | running =>
    rcases step_running_cases hs with ⟨hend, hstep⟩ | ⟨hpc, x, hx, hstep⟩ | ⟨hpc, i, len, hi, hstep⟩
    · rw [hstep] at h; cases h
      exact .inl ⟨rfl, hend, rfl⟩
    · rw [hstep] at h; cases h
      exact .inr (.inl ⟨rfl, hpc, x, hx, rfl⟩)
    · obtain ⟨rfl, -⟩ := fetch_within hi
      exact .inr (.inr (.inl ⟨rfl, hpc, i, hi, hstep ▸ h⟩))
  | awaitInput d =>
    rw [step_awaitInput hs] at h; cases h
    exact .inr (.inr (.inr ⟨d, rfl, rfl⟩))
  | halted r => rw [step_halted hs] at h; cases h
  | faulted r => rw [step_faulted hs] at h; cases h

/-- Where an instruction is fetched, `pc` is below `N` (R102): no instruction is without Words. -/
theorem fetch_below {s : State} {i : Instr} {len : Nat} (h : fetch s = .ok (i, len)) : s.pc < s.mem.size := by
  obtain ⟨rfl, hend⟩ := fetch_within h
  rw [Instr.length] at hend
  omega

/-- The channel a `Put` of a Word leaves lists only Words, whatever was answered. -/
theorem OutputChannel.holdsWords_of_put {width : Nat} {ch ch' : OutputChannel} {v : Int} {ans : PutAnswer}
    (h : ch.holdsWords width = true) (hv : isWord width v = true) (hput : ch.put v = (ans, ch')) :
    ch'.holdsWords width = true := by
  have := OutputChannel.put_holdsWords h hv
  rwa [hput] at this

/-! ## The invariant without the status -/

/-- What the invariant says of memory, `pc` and the channels, apart from the status. -/
structure State.DataInv (s : State) : Prop where
  memCanonical : s.mem.wf = true
  memSupplied : s.cfg.canSupply s.mem.size = true
  memWords : s.mem.holdsWords s.cfg.width = true
  pcRange : s.pc ≤ s.mem.size ∨ (s.pc : Int) ≤ wordMax s.cfg.width
  inputWords : s.input.holdsWords s.cfg.width = true
  outputWords : s.output.holdsWords s.cfg.width = true

theorem State.Inv.dataInv {s : State} (h : s.Inv) : s.DataInv := { h with }

theorem State.DataInv.inv {s : State} (h : s.DataInv) (hs : s.statusOk) : s.Inv := { h with statusFits := hs }

/-! Status and latch are no part of the data. -/

theorem State.DataInv.raise {s : State} (h : s.DataInv) (c : Cause) : (s.raise c).DataInv := { h with }

theorem State.DataInv.haltWith {s : State} (h : s.DataInv) (r : HaltReason) : (s.haltWith r).DataInv := { h with }

theorem State.DataInv.latched {s : State} (h : s.DataInv) (i : Instr) (len : Nat) : (s.latched i len).DataInv := { h with }

/-- A fetched instruction ends at or below `N`, so an advance by its length keeps `pc` in range. -/
theorem State.DataInv.advance {s : State} (h : s.DataInv) {len : Nat} (hlen : s.pc + len ≤ s.mem.size) :
    (s.advance len).DataInv := { h with pcRange := .inl hlen }

/-- A jump to the value of a Word keeps `pc` in range. -/
theorem State.DataInv.jumpTo {s : State} (h : s.DataInv) {x : Int} (h0 : 0 ≤ x) (hx : isWord s.cfg.width x = true) :
    (s.jumpTo x.toNat).DataInv where
  __ := h
  pcRange := .inr (by
    rw [State.jumpTo_pc, Int.toNat_of_nonneg h0]
    exact ((isWord_iff _ _).1 hx).2)

/-- A store of a Word below `N` keeps memory canonical and of Words. -/
theorem State.DataInv.store {s : State} (h : s.DataInv) {a v : Int} (ha : s.mem.inBounds a = true)
    (hv : isWord s.cfg.width v = true) : (s.withMem (s.mem.poke a.toNat v)).DataInv where
  __ := h
  memCanonical := Memory.wf_poke h.memCanonical (Memory.inBounds_toNat ha).2.1 v
  memWords := Memory.holdsWords_poke h.memWords hv _

theorem State.DataInv.withInput {s : State} (h : s.DataInv) {ch : InputChannel} (hch : ch.holdsWords s.cfg.width = true) :
    State.DataInv { s with input := ch } := { h with inputWords := hch }

theorem State.DataInv.withOutput {s : State} (h : s.DataInv) {ch : OutputChannel}
    (hch : ch.holdsWords s.cfg.width = true) : State.DataInv { s with output := ch } := { h with outputWords := hch }

/-! ## The status clause -/

/-- In `Running` the status clause asks for an empty latch. -/
theorem State.statusOk_of_running {s : State} (h : s.status = .running) (hl : s.latch = none) : s.statusOk := by
  rw [State.statusOk, h]; exact hl

/-- A fault taken below `N` meets the status clause. -/
theorem State.raise_statusOk {s : State} (h : s.pc < s.mem.size) (c : Cause) : (s.raise c).statusOk := ⟨rfl, rfl, h⟩

/-- What the status clause says of a waiting IN. -/
theorem State.statusOk_awaitInput {s : State} {d : Param} (h : s.status = .awaitInput d) :
    s.statusOk ↔ s.latch = some { instr := .input d, length := 2 } ∧ fetch s = .ok (.input d, 2) := by
  rw [State.statusOk, h]

/-! ## Every step keeps it -/

/-- An instruction fetched at `pc` ends in a state that meets the invariant. -/
theorem exec_keeps_inv {i : Instr} {s t : State} (h : s.DataInv) (hrun : s.status = .running)
    (hf : fetch s = .ok (i, i.length)) (he : exec i (s.latched i i.length) = .next t) : t.Inv := by
  obtain ⟨-, hend⟩ := fetch_within hf
  have hpc := fetch_below hf
  have hwords : ∀ {p : Param} {v : Int}, p ∈ i.params → readVal s p = .ok v → isWord s.cfg.width v = true :=
    fun hp hv => readVal_isWord h.memWords (fetch_raw_isWord h.memWords hf _ hp) hv
  have hl : (s.latched i i.length).DataInv := h.latched i i.length
  rcases exec_cases he with ⟨c, rfl, -, -⟩ | ⟨p1, p2, p3, f, a, b, hi, -, -, hr, hd, rfl⟩ | ⟨p, rfl, rfl⟩ |
    ⟨p, v, ch, rfl, hv, hput, rfl⟩ | ⟨p, v, ch, rfl, hv, hput, rfl⟩ | ⟨p1, p2, hi, rfl | ⟨x, hx, h0, rfl⟩⟩ | ⟨rfl, rfl⟩
  · exact (hl.raise c).inv (State.raise_statusOk hpc c)
  · have hlen : s.pc + 4 ≤ s.mem.size := by rcases hi with rfl | rfl | rfl | rfl <;> exact hend
    exact ((hl.store hd hr).advance hlen).inv (State.statusOk_of_running hrun rfl)
  · have hin : (s.input.prompted).holdsWords s.cfg.width = true := InputChannel.prompted_holdsWords.trans h.inputWords
    exact { hl.withInput hin with statusFits := ⟨rfl, hf⟩ }
  · have hout := OutputChannel.holdsWords_of_put h.outputWords (hwords (List.mem_singleton.2 rfl) hv) hput
    exact ((hl.withOutput hout).advance hend).inv (State.statusOk_of_running hrun rfl)
  · have hout := OutputChannel.holdsWords_of_put h.outputWords (hwords (List.mem_singleton.2 rfl) hv) hput
    exact ((hl.withOutput hout).raise .ioError).inv (State.raise_statusOk hpc .ioError)
  · have hlen : s.pc + 3 ≤ s.mem.size := by rcases hi with rfl | rfl <;> exact hend
    exact (hl.advance hlen).inv (State.statusOk_of_running hrun rfl)
  · have hword : isWord s.cfg.width x = true := hwords (by rcases hi with rfl | rfl <;> simp [Instr.params]) hx
    exact (hl.jumpTo h0 hword).inv (State.statusOk_of_running hrun rfl)
  · exact (hl.haltWith .haltInstr).inv ⟨rfl, hpc⟩

/-- The step of a waiting IN keeps the invariant: it still stands at `pc`, so `pc + 2` is at most `N`. -/
theorem completeInput_keeps_inv {d : Param} {s : State} (h : s.Inv) (hwait : s.status = .awaitInput d) :
    (completeInput d s).Inv := by
  obtain ⟨-, hf⟩ := (State.statusOk_awaitInput hwait).1 h.statusFits
  obtain ⟨-, hend⟩ := fetch_within hf
  have hpc := fetch_below hf
  have hin : ∀ {ans ch}, s.input.take s.cfg.width = some (ans, ch) → State.DataInv { s with input := ch } :=
    fun htake => h.dataInv.withInput (InputChannel.take_holdsWords h.inputWords htake).1
  rcases completeInput_cases d s with ⟨-, he⟩ | ⟨v, ch, htake, hd, he⟩ | ⟨v, ch, htake, -, he⟩ | ⟨ch, htake, he⟩ |
    ⟨ch, htake, he⟩ <;> rw [he]
  · exact h
  · have hv : isWord s.cfg.width v = true := (InputChannel.take_holdsWords h.inputWords htake).2 v rfl
    exact { ((hin htake).store hd hv).advance hend with statusFits := rfl }
  all_goals exact ((hin htake).raise _).inv (State.raise_statusOk hpc _)

/-- Settles O50: by the four rows of `step_cases`, through `exec_keeps_inv` and `completeInput_keeps_inv`. -/
theorem stepKeepsTheInvariant : Obligations.StepKeepsTheInvariant := by
  intro s t h hstep
  rcases step_cases hstep with ⟨-, hend, rfl⟩ | ⟨-, hpc, x, -, rfl⟩ | ⟨hrun, -, i, hf, he⟩ | ⟨d, hwait, rfl⟩
  · exact (h.dataInv.haltWith .endOfMemory).inv ⟨rfl, hend⟩
  · exact (h.dataInv.raise _).inv (State.raise_statusOk hpc _)
  · exact exec_keeps_inv h.dataInv hrun hf he
  · exact completeInput_keeps_inv h hwait

/-- Settles O52: an image of Words makes a canonical memory of Words (`Memory.wf_ofImage`, `Memory.holdsWords_ofImage`). -/
theorem everyInvocationMeetsTheInvariant : Obligations.EveryInvocationMeetsTheInvariant := by
  intro cfg image input output himage hsupply hinput houtput
  exact ⟨Memory.wf_ofImage image, hsupply, Memory.holdsWords_ofImage himage, .inl (Nat.zero_le _), hinput, houtput, rfl⟩

/-- Settles O51: `State.reset` is the reset of the empty image with channels that list nothing. -/
theorem resetMeetsTheInvariant : Obligations.ResetMeetsTheInvariant :=
  everyInvocationMeetsTheInvariant Config.default [] (.scripted []) (.collecting []) rfl rfl rfl rfl

end Sys2Proof.Machine
end

section
/-! PROOF. Operand resolution and the four ALU instructions (40_engine.md R105, R106; 41_alu.md R130 to R135). -/

namespace Sys2Proof.Machine

/-! ## The Words of an instruction by its number of parameters (30_encoding.md R71) -/

theorem encode_of_one_param {i : Instr} {p : Param} (h : i.params = [p]) :
    encode i = [((i.kind.opcode + 100 * p.mode.digit : Nat) : Int), p.raw] := by
  rw [encode, Instr.word, h]; rfl

theorem encode_of_two_params {i : Instr} {p1 p2 : Param} (h : i.params = [p1, p2]) :
    encode i = [((i.kind.opcode + 100 * p1.mode.digit + 1000 * p2.mode.digit : Nat) : Int), p1.raw, p2.raw] := by
  rw [encode, Instr.word, h, Nat.add_assoc]; rfl

theorem encode_of_three_params {i : Instr} {p1 p2 p3 : Param} (h : i.params = [p1, p2, p3]) :
    encode i = [((i.kind.opcode + 100 * p1.mode.digit + 1000 * p2.mode.digit + 10000 * p3.mode.digit : Nat) : Int),
      p1.raw, p2.raw, p3.raw] := by
  rw [encode, Instr.word, h, Nat.add_assoc, Nat.add_assoc]; rfl

/-! ## Words -/

/-- A value is no Word exactly below `WMIN` or above `WMAX`. -/
theorem isWord_eq_false_iff {width : Nat} {v : Int} : isWord width v = false ↔ v < wordMin width ∨ wordMax width < v := by
  rw [← Bool.not_eq_true, isWord_iff]
  omega

/-- The Word 1 is in the range of every core, whose width is at least 64 (D2). -/
theorem isWord_one (c : Config) : isWord c.width 1 = true := by
  have h2 : 2 ^ 1 ≤ 2 ^ (c.width - 1) := Nat.pow_le_pow_right (by decide) (by rw [Config.width]; omega)
  rw [isWord_iff, wordMin, wordMax]
  omega

/-- The result of a comparison, 1 or 0, is a Word. -/
theorem isWord_ite_one_zero (c : Config) (P : Prop) [Decidable P] : isWord c.width (if P then 1 else 0) = true := by
  split
  · exact isWord_one c
  · exact isWord_zero c.width

/-! ## Operands -/

/-- Settles O10: by `memRead_eq_ok` and `memRead_eq_error`, through those of `readVal`. -/
theorem readValResolvesBothModes : Obligations.ReadValResolvesBothModes := by
  refine fun s raw => ⟨rfl, fun h0 hN => ?_, fun hout => ?_⟩
  · exact readVal_eq_ok.2 (.inr ⟨rfl, (s.mem.inBounds_iff raw).2 ⟨h0, hN⟩, rfl⟩)
  · exact readVal_eq_error.2 ⟨rfl, (s.mem.inBounds_eq_false_iff raw).2 hout, rfl⟩

/-- The one fault of a source (R105). -/
theorem readVal_of_outOfBounds {s : State} {p : Param} (hm : p.mode = .position) (h : s.mem.inBounds p.raw = false) :
    readVal s p = .error (.outOfBounds p.raw) := readVal_eq_error.2 ⟨hm, h, rfl⟩

/-- A parameter that cannot be read stands in Position mode with its address out of range. -/
theorem inBounds_of_readVal_error {s : State} {p : Param} {c : Cause} (h : readVal s p = .error c) :
    s.mem.inBounds p.raw = false ∧ c = .outOfBounds p.raw := by
  obtain ⟨-, hb, hc⟩ := readVal_eq_error.1 h
  exact ⟨hb, hc⟩

/-! ## The ALU datapath on a state -/

/-- The datapath stores its result and advances by 4, and changes nothing else (R130). -/
theorem orRaise_alu_stores {f : Int → Int → Int} {p1 p2 p3 : Param} {s : State} {a b : Int} (hwf : s.mem.wf = true)
    (ha : readVal s p1 = .ok a) (hb : readVal s p2 = .ok b) (hr : isWord s.cfg.width (f a b) = true)
    (h0 : 0 ≤ p3.raw) (hN : p3.raw < (s.mem.size : Int)) :
    ∃ m', s.mem.Stored m' p3.raw.toNat (f a b) ∧
      s.orRaise (alu f p1 p2 p3 s) = { s with pc := s.pc + 4, mem := m', latch := none } := by
  have hd : s.mem.inBounds p3.raw = true := (s.mem.inBounds_iff p3.raw).2 ⟨h0, hN⟩
  refine ⟨s.mem.poke p3.raw.toNat (f a b), Memory.stored_poke hwf (Memory.inBounds_toNat hd).2.1 _, ?_⟩
  rw [alu_eq_ok.2 ⟨a, b, ha, hb, hr, hd, rfl⟩]
  rfl

/-- A datapath that raises leaves the state but for the fault and the emptied latch (R108). -/
theorem orRaise_of_error {s : State} {r : Except Cause State} {c : Cause} (h : r = .error c) :
    s.orRaise r = { s with status := .faulted { pc := s.pc, cause := c }, latch := none } := by
  rw [h]; rfl

/-- The first source is resolved first. -/
theorem alu_error_of_first {f : Int → Int → Int} {p1 p2 p3 : Param} {s : State} {c : Cause}
    (h : readVal s p1 = .error c) : alu f p1 p2 p3 s = .error c := alu_eq_error.2 (.inl h)

/-- The second source is resolved after the first. -/
theorem alu_error_of_second {f : Int → Int → Int} {p1 p2 p3 : Param} {s : State} {a : Int} {c : Cause}
    (ha : readVal s p1 = .ok a) (h : readVal s p2 = .error c) : alu f p1 p2 p3 s = .error c :=
  alu_eq_error.2 (.inr ⟨a, ha, .inl h⟩)

/-- The range is checked once both sources are read, whatever the destination. -/
theorem alu_error_of_range {f : Int → Int → Int} {p1 p2 p3 : Param} {s : State} {a b : Int} (ha : readVal s p1 = .ok a)
    (hb : readVal s p2 = .ok b) (hr : isWord s.cfg.width (f a b) = false) :
    alu f p1 p2 p3 s = .error (.overflow (f a b)) :=
  alu_eq_error.2 (.inr ⟨a, ha, .inr ⟨b, hb, .inl ⟨hr, rfl⟩⟩⟩)

/-- The destination is checked last. -/
theorem alu_error_of_destination {f : Int → Int → Int} {p1 p2 p3 : Param} {s : State} {a b : Int}
    (ha : readVal s p1 = .ok a) (hb : readVal s p2 = .ok b) (hr : isWord s.cfg.width (f a b) = true)
    (hd : s.mem.inBounds p3.raw = false) : alu f p1 p2 p3 s = .error (.outOfBounds p3.raw) :=
  alu_eq_error.2 (.inr ⟨a, ha, .inr ⟨b, hb, .inr ⟨hr, hd, rfl⟩⟩⟩)

/-! ## Completion -/

/-- An instruction of the shape R130 gives, with a combination whose result may leave the Word range. -/
theorem arithmeticMeaning_of_exec {mk : Param → Param → Param → Instr} {kind : Kind} {f : Int → Int → Int}
    (hkind : ∀ p1 p2 p3, (mk p1 p2 p3).kind = kind) (hparams : ∀ p1 p2 p3, (mk p1 p2 p3).params = [p1, p2, p3])
    (hexec : ∀ p1 p2 p3 s, exec (mk p1 p2 p3) s = .next (s.orRaise (alu f p1 p2 p3 s))) :
    ArithmeticMeaning mk kind.opcode f := by
  refine fun p1 p2 p3 s hwf => ⟨?_, fun a b ha hb hmin hmax h0 hN => ?_⟩
  · rw [encode_of_three_params (hparams p1 p2 p3), hkind]
  · obtain ⟨m', hm', he⟩ := orRaise_alu_stores hwf ha hb ((isWord_iff _ _).2 ⟨hmin, hmax⟩) h0 hN
    exact ⟨m', hm', by rw [hexec, he]⟩

/-- Settles O12: by `arithmeticMeaning_of_exec` for the sum. -/
theorem addStoresTheSum : Obligations.AddStoresTheSum :=
  arithmeticMeaning_of_exec (kind := .add) (fun _ _ _ => rfl) (fun _ _ _ => rfl) fun _ _ _ _ => rfl

/-- Settles O13: by `arithmeticMeaning_of_exec` for the product. -/
theorem multiplyStoresTheProduct : Obligations.MultiplyStoresTheProduct :=
  arithmeticMeaning_of_exec (kind := .multiply) (fun _ _ _ => rfl) (fun _ _ _ => rfl) fun _ _ _ _ => rfl

/-- Settles O15: by `orRaise_alu_stores`, the result of the comparison being a Word. -/
theorem lessThanStoresTheComparison : Obligations.LessThanStoresTheComparison := by
  refine fun p1 p2 p3 s hwf => ⟨encode_of_three_params rfl, fun a b ha hb h0 hN => ?_⟩
  obtain ⟨m', hm', he⟩ := orRaise_alu_stores (f := lessThanWord) hwf ha hb (isWord_ite_one_zero s.cfg (a < b)) h0 hN
  exact ⟨m', hm', congrArg _ he⟩

/-- An EQ with an operand out of range raises `OutOfBounds` of such an operand: the first one in the order of R231. -/
theorem alu_equals_error {p1 p2 p3 : Param} {s : State}
    (h : (p1.mode = .position ∧ s.mem.inBounds p1.raw = false) ∨ (p2.mode = .position ∧ s.mem.inBounds p2.raw = false) ∨
      s.mem.inBounds p3.raw = false) :
    ∃ p, (p = p1 ∨ p = p2 ∨ p = p3) ∧ s.mem.inBounds p.raw = false ∧
      alu equalsWord p1 p2 p3 s = .error (.outOfBounds p.raw) := by
  cases h1 : readVal s p1 with
  | error c =>
    obtain ⟨hb, rfl⟩ := inBounds_of_readVal_error h1
    exact ⟨p1, .inl rfl, hb, alu_error_of_first h1⟩
  | ok a =>
    cases h2 : readVal s p2 with
    | error c =>
      obtain ⟨hb, rfl⟩ := inBounds_of_readVal_error h2
      exact ⟨p2, .inr (.inl rfl), hb, alu_error_of_second h1 h2⟩
    | ok b =>
      rcases h with ⟨hm, hb⟩ | ⟨hm, hb⟩ | hb
      · rw [readVal_of_outOfBounds hm hb] at h1; cases h1
      · rw [readVal_of_outOfBounds hm hb] at h2; cases h2
      · exact ⟨p3, .inr (.inr rfl), hb, alu_error_of_destination h1 h2 (isWord_ite_one_zero s.cfg (a = b)) hb⟩

/-- Settles O16: completion by `orRaise_alu_stores`, the faults by `alu_equals_error`. -/
theorem equalsStoresTheComparison : Obligations.EqualsStoresTheComparison := by
  refine fun p1 p2 p3 s hwf => ⟨⟨encode_of_three_params rfl, rfl⟩, fun a b ha hb h0 hN => ?_, fun hout => ?_⟩
  · obtain ⟨m', hm', he⟩ := orRaise_alu_stores (f := equalsWord) hwf ha hb (isWord_ite_one_zero s.cfg (a = b)) h0 hN
    exact ⟨m', hm', congrArg _ he⟩
  · obtain ⟨p, hp, hb, he⟩ := alu_equals_error hout
    exact ⟨p, hp, hb, congrArg _ (orRaise_of_error he)⟩

/-! ## Faults -/

/-- Settles O14: a result that is no Word is raised after both sources are read (`alu_error_of_range`). -/
theorem resultOutOfRangeOverflows : Obligations.ResultOutOfRangeOverflows := by
  refine fun p1 p2 p3 s a b ha hb => ⟨fun hout => ?_, fun hout => ?_⟩
  · exact congrArg _ (orRaise_of_error (alu_error_of_range (f := fun a b => a + b) ha hb (isWord_eq_false_iff.2 hout)))
  · exact congrArg _ (orRaise_of_error (alu_error_of_range (f := fun a b => a * b) ha hb (isWord_eq_false_iff.2 hout)))

/-- Settles O17: the four instructions run one datapath, whose checks `alu_error_of_first`, `alu_error_of_second` and
`alu_error_of_destination` give in order. -/
theorem aluFaultsComeInOrder : Obligations.AluFaultsComeInOrder := by
  intro p1 p2 p3 s i f hi
  have hexec : exec i s = .next (s.orRaise (alu f p1 p2 p3 s)) := by
    rcases hi with ⟨rfl, rfl⟩ | ⟨rfl, rfl⟩ | ⟨rfl, rfl⟩ | ⟨rfl, rfl⟩ <;> rfl
  rw [hexec]
  refine ⟨fun c h => ?_, fun a c ha h => ?_, fun a b ha hb hr hout => ?_⟩
  · exact congrArg _ (orRaise_of_error (alu_error_of_first h))
  · exact congrArg _ (orRaise_of_error (alu_error_of_second ha h))
  · have hd : s.mem.inBounds p3.raw = false := (s.mem.inBounds_eq_false_iff p3.raw).2 hout
    exact congrArg _ (orRaise_of_error (alu_error_of_destination ha hb hr hd))

/-! ## The frame -/

/-- The datapath of the four ALU instructions ends in a fault, or in a store at the address of the destination. -/
theorem exec_alu_cases {i : Instr} {p1 p2 p3 : Param} {s t : State}
    (hi : i = .add p1 p2 p3 ∨ i = .multiply p1 p2 p3 ∨ i = .lessThan p1 p2 p3 ∨ i = .equals p1 p2 p3)
    (h : exec i s = .next t) :
    (∃ c, t = s.raise c) ∨
      ∃ v, s.mem.inBounds p3.raw = true ∧ t = (s.withMem (s.mem.poke p3.raw.toNat v)).advance 4 := by
  have hexec : ∃ f, t = s.orRaise (alu f p1 p2 p3 s) := by
    rcases hi with rfl | rfl | rfl | rfl <;> cases h <;> exact ⟨_, rfl⟩
  obtain ⟨f, rfl⟩ := hexec
  rcases alu_answers f p1 p2 p3 s with ⟨c, e⟩ | ⟨a, b, -, -, -, hd, e⟩
  · exact .inl ⟨c, e⟩
  · exact .inr ⟨f a b, hd, e⟩

/-- `WriteAddr` of an address in range. -/
theorem writeAddr_of_inBounds {s : State} {p : Param} (h : s.mem.inBounds p.raw = true) :
    writeAddr s p = .ok p.raw.toNat := writeAddr_eq_ok.2 ⟨h, rfl⟩

/-- Settles O18: by the two ends of `exec_alu_cases`, with `Memory.peek_poke_other` for the other cells. -/
theorem aluFrame : Obligations.AluFrame := by
  intro p1 p2 p3 i s t hwf hi h
  rcases exec_alu_cases hi h with ⟨c, rfl⟩ | ⟨v, hd, rfl⟩
  · exact ⟨rfl, rfl, rfl, rfl, rfl, fun _ _ _ _ => rfl, fun _ _ => rfl, .inr ⟨rfl, rfl, _, rfl⟩⟩
  · refine ⟨rfl, rfl, rfl, rfl, rfl, fun d hd' a ha => ?_, fun c hc => ?_, .inl rfl⟩
    · obtain ⟨-, rfl⟩ := writeAddr_eq_ok.1 hd'
      exact Memory.peek_poke_other hwf ha v
    · rw [writeAddr_of_inBounds hd] at hc; cases hc

end Sys2Proof.Machine
end

section
/-! PROOF. The control transfers JT, JF and HALT, and the pseudo-instructions (43_control.md R170 to R174, 30_encoding.md
R88). -/

namespace Sys2Proof.Machine

/-! ## The jump datapath on a state -/

/-- A taken jump to a value that is not negative sets `pc` to it, and changes nothing else (R173). -/
theorem orRaise_jump_taken {test : Int → Bool} {p1 p2 : Param} {s : State} {c x : Int} (hc : readVal s p1 = .ok c)
    (ht : test c = true) (hx : readVal s p2 = .ok x) (h0 : 0 ≤ x) :
    s.orRaise (jump test p1 p2 s) = { s with pc := x.toNat, latch := none } := by
  rw [jump_eq_ok.2 ⟨c, hc, .inl ⟨ht, x, hx, h0, rfl⟩⟩]; rfl

/-- A jump that is not taken advances by 3, once its target is resolved where that is asked for (R173). -/
theorem orRaise_jump_not_taken {test : Int → Bool} {p1 p2 : Param} {s : State} {c : Int} (hc : readVal s p1 = .ok c)
    (ht : test c = false) (hx : s.cfg.jumpTargetEval = .lazy ∨ ∃ x, readVal s p2 = .ok x) :
    s.orRaise (jump test p1 p2 s) = { s with pc := s.pc + 3, latch := none } := by
  have heager : s.cfg.jumpTargetEval = .eager → ∃ x, readVal s p2 = .ok x := fun he =>
    hx.resolve_left (by rw [he]; exact nofun)
  rw [jump_eq_ok.2 ⟨c, hc, .inr ⟨ht, rfl, heager⟩⟩]; rfl

/-- The condition is resolved first. -/
theorem jump_error_of_condition {test : Int → Bool} {p1 p2 : Param} {s : State} {e : Cause}
    (h : readVal s p1 = .error e) : jump test p1 p2 s = .error e := jump_eq_error.2 (.inl h)

/-- A target that cannot be read is raised where it is resolved: by a taken jump, and under `eager` by any. -/
theorem jump_error_of_target {test : Int → Bool} {p1 p2 : Param} {s : State} {c : Int} {e : Cause}
    (hc : readVal s p1 = .ok c) (h : readVal s p2 = .error e) (ht : test c = true ∨ s.cfg.jumpTargetEval = .eager) :
    jump test p1 p2 s = .error e := by
  refine jump_eq_error.2 (.inr ⟨c, hc, ?_⟩)
  cases htest : test c with
  | true => exact .inl ⟨rfl, .inl h⟩
  | false => exact .inr ⟨rfl, ht.resolve_left (by rw [htest]; exact nofun), h⟩

/-- A taken jump to a negative value is raised last. -/
theorem jump_error_of_negative {test : Int → Bool} {p1 p2 : Param} {s : State} {c x : Int} (hc : readVal s p1 = .ok c)
    (ht : test c = true) (hx : readVal s p2 = .ok x) (hneg : x < 0) : jump test p1 p2 s = .error (.outOfBounds x) :=
  jump_eq_error.2 (.inr ⟨c, hc, .inl ⟨ht, .inr ⟨x, hx, hneg, rfl⟩⟩⟩)

/-! ## JT and JF -/

/-- The tests of JT and JF decide the conditions the rules name (R170, R171). -/
theorem isNonzero_iff (c : Int) : isNonzero c = true ↔ c ≠ 0 := decide_eq_true_iff

theorem isZero_iff (c : Int) : isZero c = true ↔ c = 0 := decide_eq_true_iff

/-- An instruction of the shape R173 gives, with a test that decides when the jump is taken. -/
theorem jumpMeaning_of_exec {mk : Param → Param → Instr} {kind : Kind} {test : Int → Bool} {taken : Int → Prop}
    (hkind : ∀ p1 p2, (mk p1 p2).kind = kind) (hparams : ∀ p1 p2, (mk p1 p2).params = [p1, p2])
    (hexec : ∀ p1 p2 s, exec (mk p1 p2) s = .next (s.orRaise (jump test p1 p2 s)))
    (htest : ∀ c, test c = true ↔ taken c) : JumpMeaning mk kind.opcode taken := by
  refine fun p1 p2 s => ⟨?_, fun c x hc ht hx h0 => ?_, fun c hc ht hx => ?_⟩
  · rw [encode_of_two_params (hparams p1 p2), hkind]
  · rw [hexec, orRaise_jump_taken hc ((htest c).2 ht) hx h0]
  · have hfalse : test c = false := Bool.eq_false_iff.2 fun h => ht ((htest c).1 h)
    rw [hexec, orRaise_jump_not_taken hc hfalse hx]

/-- Settles O33: by `jumpMeaning_of_exec` for the test "not 0". -/
theorem jumpIfTrueSetsPc : Obligations.JumpIfTrueSetsPc :=
  jumpMeaning_of_exec (kind := .jumpIfTrue) (fun _ _ => rfl) (fun _ _ => rfl) (fun _ _ _ => rfl) isNonzero_iff

/-- Settles O34: by `jumpMeaning_of_exec` for the test "0". -/
theorem jumpIfFalseSetsPc : Obligations.JumpIfFalseSetsPc :=
  jumpMeaning_of_exec (kind := .jumpIfFalse) (fun _ _ => rfl) (fun _ _ => rfl) (fun _ _ _ => rfl) isZero_iff

/-- Settles O35: both jumps run one datapath, whose checks `jump_error_of_condition`, `jump_error_of_target` and
`jump_error_of_negative` give in order. -/
theorem jumpFaultsComeInOrder : Obligations.JumpFaultsComeInOrder := by
  intro p1 p2 s i taken hi
  have hexec : ∃ test : Int → Bool, (∀ c, test c = true ↔ taken c) ∧
      exec i s = .next (s.orRaise (jump test p1 p2 s)) := by
    rcases hi with ⟨rfl, rfl⟩ | ⟨rfl, rfl⟩
    · exact ⟨isNonzero, isNonzero_iff, rfl⟩
    · exact ⟨isZero, isZero_iff, rfl⟩
  obtain ⟨test, htest, hexec⟩ := hexec
  rw [hexec]
  refine ⟨fun e h => ?_, fun c e hc h ht => ?_, fun c x hc hx ht hneg => ?_⟩
  · exact congrArg _ (orRaise_of_error (jump_error_of_condition h))
  · exact congrArg _ (orRaise_of_error (jump_error_of_target hc h (ht.imp_left (htest c).2)))
  · exact congrArg _ (orRaise_of_error (jump_error_of_negative hc ((htest c).2 ht) hx hneg))

/-- Everything JT and JF can end in, as an answer of `exec`. -/
theorem exec_jump_cases {i : Instr} {p1 p2 : Param} {s t : State} (hi : i = .jumpIfTrue p1 p2 ∨ i = .jumpIfFalse p1 p2)
    (h : exec i s = .next t) :
    (∃ c, t = s.raise c) ∨ t = s.advance 3 ∨ ∃ x, readVal s p2 = .ok x ∧ 0 ≤ x ∧ t = s.jumpTo x.toNat := by
  rcases hi with rfl | rfl <;> cases h <;> exact jump_answers _ p1 p2 s

/-! ## HALT -/

/-- Settles O37: the word 99 decodes by O1, and a halted state takes no step. -/
theorem haltEndsTheRun : Obligations.HaltEndsTheRun := by
  refine fun s => ⟨rfl, rfl, fun rest => ?_, s.haltWith .haltInstr, rfl, rfl, step_halted rfl⟩
  exact decodeGivesBackTheEncodedInstruction .halt rest

/-! ## What `exec` does to `pc` and to what it does not store -/

/-- The frame of OUT: memory, parameters and input stay, the latch is emptied, and a fault keeps `pc`. -/
theorem exec_output_frame {p : Param} {s t : State} (h : exec (.output p) s = .next t) :
    t.mem = s.mem ∧ t.cfg = s.cfg ∧ t.input = s.input ∧ t.latch = none ∧
      (t.status = s.status ∨ (t.pc = s.pc ∧ ∃ record, t.status = .faulted record)) := by
  rcases execOutput_cases p s with ⟨c, -, he⟩ | ⟨v, ch, -, -, he⟩ | ⟨v, ch, -, -, he⟩ <;>
    obtain rfl := Host.Outcome.next.inj (he.symm.trans h)
  · exact ⟨rfl, rfl, rfl, rfl, .inr ⟨rfl, _, rfl⟩⟩
  · exact ⟨rfl, rfl, rfl, rfl, .inl rfl⟩
  · exact ⟨rfl, rfl, rfl, rfl, .inr ⟨rfl, _, rfl⟩⟩

/-- The frame of JT and JF: memory, parameters and channels stay, the latch is emptied, and a fault keeps `pc`. -/
theorem exec_jump_frame {i : Instr} {p1 p2 : Param} {s t : State} (hi : i = .jumpIfTrue p1 p2 ∨ i = .jumpIfFalse p1 p2)
    (h : exec i s = .next t) :
    t.mem = s.mem ∧ t.cfg = s.cfg ∧ t.input = s.input ∧ t.output = s.output ∧ t.latch = none ∧
      (t.status = s.status ∨ (t.pc = s.pc ∧ ∃ record, t.status = .faulted record)) := by
  rcases exec_jump_cases hi h with ⟨c, rfl⟩ | rfl | ⟨x, -, -, rfl⟩
  · exact ⟨rfl, rfl, rfl, rfl, rfl, .inr ⟨rfl, _, rfl⟩⟩
  · exact ⟨rfl, rfl, rfl, rfl, rfl, .inl rfl⟩
  · exact ⟨rfl, rfl, rfl, rfl, rfl, .inl rfl⟩

/-- Settles O38: by the frames of OUT and of the jumps; HALT and the issue of IN are one update each. -/
theorem nonStoringFrame : Obligations.NonStoringFrame := by
  rintro i p1 p2 s t (rfl | rfl | rfl | rfl | rfl) h
  · obtain ⟨hm, hc, hin, hl, hst⟩ := exec_output_frame h
    exact ⟨hm, hc, fun _ => hin, fun hne => absurd rfl hne, nofun, fun _ => hl, nofun, fun _ => hst⟩
  · obtain ⟨hm, hc, hin, hout, hl, hst⟩ := exec_jump_frame (.inl rfl) h
    exact ⟨hm, hc, fun _ => hin, fun _ => hout, nofun, fun _ => hl, nofun, fun _ => hst⟩
  · obtain ⟨hm, hc, hin, hout, hl, hst⟩ := exec_jump_frame (.inr rfl) h
    exact ⟨hm, hc, fun _ => hin, fun _ => hout, nofun, fun _ => hl, nofun, fun _ => hst⟩
  · cases h
    exact ⟨rfl, rfl, fun _ => rfl, fun _ => rfl, nofun, fun _ => rfl, fun _ => ⟨rfl, rfl⟩, nofun⟩
  · cases h
    exact ⟨rfl, rfl, fun hne => absurd rfl hne, fun _ => rfl, fun _ => ⟨rfl, rfl⟩, fun hne => absurd rfl hne, nofun, nofun⟩

/-- Settles O46: of the ends in `Running`, a store, an OUT and a jump that is not taken advance by the length, and a taken jump
sets `pc` to its target's value. -/
theorem completedInstructionMovesPc : Obligations.CompletedInstructionMovesPc := by
  intro i s t hrun h ht
  rcases exec_cases h with ⟨c, rfl, -, -⟩ | ⟨p1, p2, p3, f, a, b, hi, -, -, -, -, rfl⟩ | ⟨p, rfl, rfl⟩ |
    ⟨p, v, ch, rfl, -, -, rfl⟩ | ⟨p, v, ch, rfl, -, -, rfl⟩ | ⟨p1, p2, hi, rfl | ⟨x, hx, h0, rfl⟩⟩ | ⟨rfl, rfl⟩
  · cases ht
  · exact .inl (by rcases hi with rfl | rfl | rfl | rfl <;> rfl)
  · cases ht
  · exact .inl rfl
  · cases ht
  · exact .inl (by rcases hi with rfl | rfl <;> rfl)
  · exact .inr ⟨p1, p2, hi, by rw [hx, State.jumpTo_pc, Int.toNat_of_nonneg h0]⟩
  · cases ht

/-! ## Pseudo-instructions -/

/-- The Words of the pseudo-instructions (R88). -/
theorem encode_expand (p : Param) (d : Int) :
    encode (Pseudo.jmp p).expand = [105 + 1000 * (p.mode.digit : Int), 1, p.raw] ∧
    encode (Pseudo.mov p d).expand = [1001 + 100 * (p.mode.digit : Int), p.raw, 0, d] ∧
    encode (Pseudo.neg p d).expand = [1002 + 100 * (p.mode.digit : Int), p.raw, -1, d] ∧
    encode Pseudo.nop.expand = [1106, 1, 0] := by
  refine ⟨?_, ?_, ?_, ?_⟩
  · rw [encode_of_two_params rfl]; simp [Pseudo.expand, Instr.kind, Kind.opcode, Mode.digit]
  · rw [encode_of_three_params rfl]; simp [Pseudo.expand, Instr.kind, Kind.opcode, Mode.digit, add_right_comm]
  · rw [encode_of_three_params rfl]; simp [Pseudo.expand, Instr.kind, Kind.opcode, Mode.digit, add_right_comm]
  · rw [encode_of_two_params rfl]; rfl

/-- The negation of a Word is a Word, but that of `WMIN` is above `WMAX`. -/
theorem isWord_neg_iff {width : Nat} {x : Int} (h : isWord width x = true) :
    isWord width (-x) = true ↔ x ≠ wordMin width := by
  simp only [isWord_iff, wordMin, wordMax] at h ⊢
  omega

/-- Settles O60: NOP and JMP are a jump with a literal condition, MOV and NEG the sum with 0 and the product with -1. -/
theorem pseudoInstructionsExpand : Obligations.PseudoInstructionsExpand := by
  intro s p d hwf
  refine ⟨encode_expand p d, ?_, fun x hx h0 => ?_, fun x hx hword h0 hN => ⟨?_, fun hmin => ?_, fun hmin => ?_⟩⟩
  · exact congrArg _ (orRaise_jump_not_taken (c := 1) rfl rfl (.inr ⟨0, rfl⟩))
  · exact congrArg _ (orRaise_jump_taken (c := 1) rfl rfl hx h0)
  · have hsum : x + 0 = x := Int.add_zero x
    obtain ⟨m', hm', he⟩ := orRaise_alu_stores (f := fun a b => a + b) (p2 := ⟨0, .immediate⟩) (p3 := ⟨d, .position⟩)
      hwf hx rfl (by rwa [hsum]) h0 hN
    exact ⟨m', hsum ▸ hm', congrArg _ he⟩
  · have hprod : x * -1 = -x := Int.mul_neg_one x
    obtain ⟨m', hm', he⟩ := orRaise_alu_stores (f := fun a b => a * b) (p2 := ⟨-1, .immediate⟩) (p3 := ⟨d, .position⟩)
      hwf hx rfl (by rw [hprod]; exact (isWord_neg_iff hword).2 hmin) h0 hN
    exact ⟨m', hprod ▸ hm', congrArg _ he⟩
  · have hprod : x * -1 = -x := Int.mul_neg_one x
    have hout : isWord s.cfg.width (x * -1) = false := by
      rw [hprod]; exact Bool.eq_false_iff.2 fun h => (isWord_neg_iff hword).1 h hmin
    rw [← hprod]
    exact congrArg _ (orRaise_of_error (alu_error_of_range (f := fun a b => a * b) hx rfl hout))

end Sys2Proof.Machine
end

section
/-! PROOF. Integers as text, and the loader (44_channels.md R195, R199; 70_reset_and_hazards.md R261). -/

namespace Sys2Proof.Machine

/-- Without a leading minus the digits alone are read. -/
theorem parseSigned_of_digits {cs : List Char} {n : Nat} (hd : ∀ c ∈ cs, IsDigit c) (h : parseDigits cs = some n) :
    parseSigned cs = some (n : Int) := by
  cases cs with
  | nil => cases h
  | cons c cs => rw [parseSigned, if_neg (hd c List.mem_cons_self).not_special.1, h]; rfl

/-- After a leading minus the digits are read and negated. -/
theorem parseSigned_minus {cs : List Char} {n : Nat} (h : parseDigits cs = some n) :
    parseSigned ('-' :: cs) = some (-(n : Int)) := by
  rw [parseSigned, if_pos rfl, h]; rfl

/-- The decimal form of an integer reads back as that integer, before the range is checked. -/
theorem parseSigned_decimal (v : Int) : parseSigned (decimal v) = some v := by
  obtain ⟨-, hdigits, hparse⟩ := decimalNat_spec v.natAbs
  unfold decimal
  split
  next hneg => rw [parseSigned_minus hparse, Int.ofNat_natAbs_of_nonpos hneg.le, Int.neg_neg]
  next hpos => rw [parseSigned_of_digits hdigits hparse, Int.natAbs_of_nonneg (Int.not_lt.1 hpos)]

/-- The decimal form of a Word parses back to it. -/
theorem parseInteger_decimal {width : Nat} {v : Int} (h : isWord width v = true) :
    parseInteger width (decimal v) = some v := by
  simp only [parseInteger, parseSigned_decimal, if_pos h]

/-- Settles O26: by `parseInteger_decimal`. -/
theorem decimalFormParsesBack : Obligations.DecimalFormParsesBack := fun _ _ h => parseInteger_decimal h

/-- Whitespace around the decimal form of a Word does not change what it parses as (R195). -/
theorem parseInteger_trim_decimal {width : Nat} {before after : List Char} {v : Int} (hb : before.all isSpace = true)
    (ha : after.all isSpace = true) (h : isWord width v = true) :
    parseInteger width (trim (before ++ decimal v ++ after)) = some v := by
  obtain ⟨hne, hchars⟩ := decimal_chars v
  rw [trim_append_of_space hb ha (fun c hc => (hchars c hc).2.2) hne, parseInteger_decimal h]

/-- The lines of a list of Words are taken one by one. -/
theorem takeLine_linesOfWords_cons (v : Int) (vs : List Int) :
    takeLine (linesOfWords (v :: vs)) = some (decimal v, linesOfWords vs) :=
  takeLine_append (linesOfWords vs) fun c hc => ((decimal_chars v).2 c hc).1

/-! ## The loader -/

/-- The tokens of a program text are the decimal forms of the image's Words. -/
theorem tokensOf_programText {image : List Int} (hne : image ≠ []) : tokensOf (programText image) = image.map decimal := by
  have htrim : ∀ v, trim (decimal v) = decimal v := fun v =>
    trim_of_noSpace fun c hc => ((decimal_chars v).2 c hc).2.2
  have hcomma : ∀ v, ∀ c ∈ decimal v, c ≠ ',' := fun v c hc => ((decimal_chars v).2 c hc).2.1
  unfold tokensOf
  induction image with
  | nil => exact absurd rfl hne
  | cons v vs ih =>
    cases vs with
    | nil => rw [programText, splitAtChar_of_not_mem (hcomma v), List.map_singleton, htrim]; rfl
    | cons w vs => rw [programText, splitAtChar_append _ (hcomma v), List.map_cons, htrim, ih nofun]; rfl

/-- Where every element has a value, all the values are there. -/
theorem allSome_map_some {α β : Type} {f : α → Option β} {g : α → β} {l : List α} (h : ∀ x ∈ l, f x = some (g x)) :
    allSome (l.map f) = some (l.map g) := by
  induction l with
  | nil => rfl
  | cons x xs ih =>
    rw [List.map_cons, h x List.mem_cons_self, allSome, ih fun y hy => h y (List.mem_cons_of_mem x hy)]
    rfl

/-- Settles O55: the tokens are the decimal forms (`tokensOf_programText`), and each parses back. -/
theorem loaderReadsBackProgramText : Obligations.LoaderReadsBackProgramText := by
  intro width image hne hwords
  have hparse : ∀ v ∈ image, (parseInteger width ∘ decimal) v = some (id v) := fun v hv =>
    parseInteger_decimal (List.all_eq_true.1 hwords v hv)
  rw [parseProgram, tokensOf_programText hne, List.map_map, allSome_map_some hparse, List.map_id]

/-- A text has at least one token. -/
theorem tokensOf_ne_nil (text : List Char) : tokensOf text ≠ [] := fun h =>
  splitAtChar_ne_nil ',' text (List.map_eq_nil_iff.1 h)

/-- What the loader answers with an image. -/
theorem parseProgram_eq_ok {width : Nat} {text : List Char} {image : List Int} :
    parseProgram width text = .ok image ↔ allSome ((tokensOf text).map (parseInteger width)) = some image := by
  unfold parseProgram
  split <;> simp [*]

/-- Settles O56: by `allSome_map_eq_some` and `allSome_map_eq_none` over the tokens. -/
theorem loaderGivesWordsOrFails : Obligations.LoaderGivesWordsOrFails := by
  refine fun width text => ⟨fun image h => ?_, fun hbad => ?_⟩
  · obtain ⟨hlen, htokens⟩ := allSome_map_eq_some (parseProgram_eq_ok.1 h)
    refine ⟨hlen, fun hnil => ?_, List.all_eq_true.2 fun v hv => ?_⟩
    · rw [hnil] at hlen
      exact tokensOf_ne_nil text (List.length_eq_zero_iff.1 hlen.symm)
    · obtain ⟨token, -, htoken⟩ := htokens v hv
      exact isWord_of_parseInteger htoken
  · rw [parseProgram, allSome_map_eq_none hbad]

end Sys2Proof.Machine
end

section
/-! PROOF. The two steps of IN and the one of OUT (42_io.md R150 to R152, 44_channels.md R195, R197). -/

namespace Sys2Proof.Machine

/-! ## The completion of an IN, by the channel's answer -/

/-- With no answer the waiting engine keeps its whole state (R195, R242). -/
theorem completeInput_of_none {d : Param} {s : State} (h : s.input.take s.cfg.width = none) : completeInput d s = s := by
  rw [completeInput, h]

/-- A value whose destination is in range is stored there; `pc` advances by 2 (R150). -/
theorem completeInput_of_value {d : Param} {s : State} {v : Int} {ch : InputChannel}
    (h : s.input.take s.cfg.width = some (.value v, ch)) (hd : s.mem.inBounds d.raw = true) :
    completeInput d s =
      { s with pc := s.pc + 2, mem := s.mem.poke d.raw.toNat v, status := .running, latch := none, input := ch } := by
  have hstore : storeInput d v { s with input := ch } = .ok
      { s with pc := s.pc + 2, mem := s.mem.poke d.raw.toNat v, status := .running, latch := none, input := ch } :=
    storeInput_eq_ok.2 ⟨hd, rfl⟩
  rw [completeInput, h]
  exact congrArg (State.orRaise { s with input := ch }) hstore

/-- A value whose destination is out of range is consumed before the fault (D12). -/
theorem completeInput_of_outOfBounds {d : Param} {s : State} {v : Int} {ch : InputChannel}
    (h : s.input.take s.cfg.width = some (.value v, ch)) (hd : s.mem.inBounds d.raw = false) :
    completeInput d s =
      { s with status := .faulted { pc := s.pc, cause := .outOfBounds d.raw }, latch := none, input := ch } := by
  have hstore : storeInput d v { s with input := ch } = .error (.outOfBounds d.raw) := storeInput_eq_error.2 ⟨hd, rfl⟩
  rw [completeInput, h]
  exact congrArg (State.orRaise { s with input := ch }) hstore

/-- The channel after the completion is the one the transaction left, whatever was answered. -/
theorem completeInput_input {d : Param} {s : State} {ans : TakeAnswer} {ch : InputChannel}
    (h : s.input.take s.cfg.width = some (ans, ch)) : (completeInput d s).input = ch := by
  cases ans with
  | value v =>
    cases hd : s.mem.inBounds d.raw with
    | true => rw [completeInput_of_value h hd]
    | false => rw [completeInput_of_outOfBounds h hd]
  | exhausted => rw [completeInput_of_exhausted h, State.raise_input]
  | ioError => rw [completeInput_of_ioError h, State.raise_input]

/-! ## IN -/

/-- Settles O19: the issue is one update of the status and the prompt. -/
theorem inputIssuesTake : Obligations.InputIssuesTake :=
  fun _ _ => ⟨encode_of_one_param rfl, rfl, fun _ h => by rw [h]; rfl, fun _ h => by rw [h]; rfl, fun _ _ h => by rw [h]; rfl⟩

/-- Settles O20: the issue and then `completeInput_of_value`. -/
theorem inputStoresTheTakenValue : Obligations.InputStoresTheTakenValue := by
  intro p s v ch hwf htake h0 hN
  have hd : s.mem.inBounds p.raw = true := (s.mem.inBounds_iff p.raw).2 ⟨h0, hN⟩
  refine ⟨{ s with status := .awaitInput p, input := s.input.prompted }, s.mem.poke p.raw.toNat v, rfl,
    Memory.stored_poke hwf (Memory.inBounds_toNat hd).2.1 v, ?_⟩
  rw [step_awaitInput rfl]
  exact congrArg _ (completeInput_of_value htake hd)

/-- Settles O21: by `completeInput_of_outOfBounds`. -/
theorem inputOutOfRangeStillConsumes : Obligations.InputOutOfRangeStillConsumes := by
  intro p s v ch hwait htake hout
  rw [step_awaitInput hwait, completeInput_of_outOfBounds htake ((s.mem.inBounds_eq_false_iff p.raw).2 hout)]

/-- A line that parses answers its value, any other `IOError` (R195, R199). -/
theorem answerOfLine_of_some {width : Nat} {line : List Char} {v : Int} (h : parseInteger width line = some v) :
    answerOfLine width line = .value v := by
  rw [answerOfLine, h]

theorem answerOfLine_of_none {width : Nat} {line : List Char} (h : parseInteger width line = none) :
    answerOfLine width line = .ioError := by
  rw [answerOfLine, h]

/-- The next event of a console is taken with the answer it gives (D17). -/
theorem take_of_event {width n : Nat} {ch : InputChannel} {event : ConsoleEvent} {rest : List ConsoleEvent}
    {ans : TakeAnswer} (hin : ch = .interactive n (event :: rest)) (h : answerOfEvent width event = ans) :
    ch.take width = some (ans, .interactive n rest) := by
  rw [hin, ← h]; rfl

/-- Settles O23: each event fixes the answer, and each answer the completion. -/
theorem waitKeepsStateUntilAnswered : Obligations.WaitKeepsStateUntilAnswered := by
  intro s p n hwait
  rw [step_awaitInput hwait]
  refine ⟨fun hin => ⟨?_, fun event => ?_⟩, fun event rest hin => ⟨?_, ?_, ?_, ?_⟩,
    fun before after v hb ha hv => parseInteger_trim_decimal hb ha hv⟩
  · rw [completeInput_of_none (by rw [hin]; rfl)]
  · have hfed : s.hostFeedsConsole event = { s with input := .interactive n [event] } := by
      rw [State.hostFeedsConsole, hin]; rfl
    have htake : (s.hostFeedsConsole event).input.take (s.hostFeedsConsole event).cfg.width =
        some (answerOfEvent s.cfg.width event, .interactive n []) := by rw [hfed]; rfl
    refine ⟨hfed, _, step_awaitInput hwait, completeInput_input htake, ?_⟩
    exact (completeInput_ends (by rw [htake]; exact nofun)).imp_left And.left
  · rintro text v rfl hparse
    have htake := take_of_event hin (answerOfLine_of_some hparse)
    refine ⟨fun hwf h0 hN => ?_, fun hout => ?_⟩
    · have hd : s.mem.inBounds p.raw = true := (s.mem.inBounds_iff p.raw).2 ⟨h0, hN⟩
      exact ⟨_, Memory.stored_poke hwf (Memory.inBounds_toNat hd).2.1 v, congrArg _ (completeInput_of_value htake hd)⟩
    · exact congrArg _ (completeInput_of_outOfBounds htake ((s.mem.inBounds_eq_false_iff p.raw).2 hout))
  · rintro text rfl hparse
    exact congrArg _ (completeInput_of_ioError (take_of_event hin (answerOfLine_of_none hparse)))
  · rintro rfl
    exact congrArg _ (completeInput_of_exhausted (take_of_event hin rfl))
  · rintro rfl
    exact congrArg _ (completeInput_of_ioError (take_of_event hin rfl))

/-- An answered IN ends alike from any status: it does not look at the one it leaves. -/
theorem completeInput_withStatus {d : Param} {s : State} {ans : TakeAnswer} {ch : InputChannel}
    (h : s.input.take s.cfg.width = some (ans, ch)) (st : Status) :
    completeInput d { s with status := st } = completeInput d s := by
  cases ans with
  | value v =>
    cases hd : s.mem.inBounds d.raw with
    | true => exact (completeInput_of_value (s := { s with status := st }) h hd).trans (completeInput_of_value h hd).symm
    | false => exact (completeInput_of_outOfBounds (s := { s with status := st }) h hd).trans (completeInput_of_outOfBounds h hd).symm
  | exhausted => exact (completeInput_of_exhausted (s := { s with status := st }) h).trans (completeInput_of_exhausted h).symm
  | ioError => exact (completeInput_of_ioError (s := { s with status := st }) h).trans (completeInput_of_ioError h).symm

/-- Settles O11: `writeAddr` reads the raw value alone, and an answered IN ends alike from any status. -/
theorem destinationModeHasNoEffect : Obligations.DestinationModeHasNoEffect := by
  refine fun p1 p2 raw m m' s => ⟨rfl, rfl, rfl, rfl, fun t answer ch hwait htake hstep => ?_⟩
  rw [step_awaitInput hwait] at hstep
  rw [step_awaitInput rfl, completeInput_withStatus htake, ← hstep]
  rfl

/-- Settles O39: by `completeInput_cases`; only the store in range touches memory. -/
theorem inputCompletionFrame : Obligations.InputCompletionFrame := by
  intro p s t hwf hwait hstep
  rw [step_awaitInput hwait] at hstep
  cases hstep
  rcases completeInput_cases p s with ⟨-, he⟩ | ⟨v, ch, -, hd, he⟩ | ⟨v, ch, -, -, he⟩ | ⟨ch, -, he⟩ | ⟨ch, -, he⟩ <;> rw [he]
  case inr.inl =>
    refine ⟨rfl, rfl, rfl, fun d hd' a ha => ?_, fun c hc => ?_, fun hne => absurd rfl hne⟩
    · obtain ⟨-, rfl⟩ := writeAddr_eq_ok.1 hd'
      exact Memory.peek_poke_other hwf ha v
    · rw [writeAddr_of_inBounds hd] at hc; cases hc
  all_goals exact ⟨rfl, rfl, rfl, fun _ _ _ _ => rfl, fun _ _ => rfl, fun _ => ⟨rfl, rfl⟩⟩

/-! ## OUT -/

/-- A `Put` that answers `Ok` completes the OUT (R151). -/
theorem exec_output_of_put_ok {p : Param} {s : State} {v : Int} {ch : OutputChannel} (hv : readVal s p = .ok v)
    (hput : s.output.put v = (.ok, ch)) :
    exec (.output p) s = .next { s with pc := s.pc + 2, latch := none, output := ch } := by
  have hadvance : putValue v s = State.advance 2 { s with output := ch } := by rw [putValue, hput]
  have hexec : exec (.output p) s = .next (putValue v s) := by rw [exec, execOutput, hv]; rfl
  rw [hexec, hadvance]; rfl

/-- A source that cannot be read is raised before any `Put` (R151). -/
theorem exec_output_of_error {p : Param} {s : State} {c : Cause} (h : readVal s p = .error c) :
    exec (.output p) s = .next (s.raise c) := by
  rw [exec, execOutput, h]; rfl

/-- Settles O28: one lemma for each end of OUT. -/
theorem outputPutsTheValue : Obligations.OutputPutsTheValue := by
  refine fun p s => ⟨⟨encode_of_one_param rfl, rfl⟩, fun v ch hv hput => exec_output_of_put_ok hv hput,
    fun v ch hv hput => exec_output_of_put_ioError hv hput, fun hm hout => ?_, fun _ _ => rfl⟩
  exact exec_output_of_error (readVal_of_outOfBounds hm ((s.mem.inBounds_eq_false_iff p.raw).2 hout))

/-- Settles O29: `OutputChannel.put` by the host's next answer, then the two ends of OUT after a `Put`. -/
theorem interactiveOutputFollowsTheHost : Obligations.InteractiveOutputFollowsTheHost := by
  intro p s v lines puts answers hv hout
  have hok : nextPutAnswer puts answers = .ok →
      s.output.put v = (.ok, .interactive (lines ++ [lineOfWord v]) (puts + 1) answers.tail) := fun h => by
    rw [hout, OutputChannel.put, h]
  have herr : nextPutAnswer puts answers = .ioError →
      s.output.put v = (.ioError, .interactive lines (puts + 1) answers.tail) := fun h => by
    rw [hout, OutputChannel.put, h]
  have hlisted : ∀ {a}, answers.head? = some a → nextPutAnswer puts answers = a := fun h => by
    obtain ⟨rest, rfl⟩ := List.head?_eq_some_iff.1 h; rfl
  refine ⟨fun h => exec_output_of_put_ok hv (hok (hlisted h)), fun h => exec_output_of_put_ioError hv (herr (hlisted h)), ?_⟩
  cases hans : nextPutAnswer puts answers with
  | ok => exact ⟨_, exec_output_of_put_ok hv (hok hans), .inl rfl, _, rfl⟩
  | ioError => exact ⟨_, exec_output_of_put_ioError hv (herr hans), .inr rfl, _, rfl⟩

end Sys2Proof.Machine
end

section
/-! PROOF. One step of the engine: the rows of its table, the fetched instruction, and faults (40_engine.md R100 to R109,
60_exceptions.md R233). -/

namespace Sys2Proof.Machine

/-! ## The rows of the table -/

/-- Where the Words of an instruction stand at `pc`, the fetch gives that instruction: by O1, whatever Words follow. -/
theorem fetch_of_holdsInstr {s : State} {i : Instr} (h : s.mem.holdsInstr s.pc i) : fetch s = .ok (i, i.length) := by
  obtain ⟨rest, hview⟩ := Memory.view_of_holdsInstr h
  rw [fetch, hview]
  exact decodeGivesBackTheEncodedInstruction i rest

/-- A fetch that succeeds makes the step run the instruction, latched (R102, R103). -/
theorem step_of_fetch_eq_ok {s : State} {i : Instr} {len : Nat} (hrun : s.status = .running) (hf : fetch s = .ok (i, len)) :
    step s = exec i (s.latched i len) := by
  rcases step_running_cases hrun with ⟨hend, -⟩ | ⟨-, x, hx, -⟩ | ⟨-, i', len', hi, hstep⟩
  · exact absurd (fetch_below hf) (Nat.not_lt.2 hend)
  · rw [hf] at hx; cases hx
  · rw [hf] at hi; cases hi
    exact hstep

/-- Settles O40: by `step_of_fetch_eq_error`, `step_of_fetch_eq_ok` and `fetch_of_holdsInstr`. -/
theorem stepRunsTheDecodedInstruction : Obligations.StepRunsTheDecodedInstruction :=
  fun _ hrun hpc => ⟨fun _ hf => step_of_fetch_eq_error hrun hpc hf, fun _ _ hf => step_of_fetch_eq_ok hrun hf,
    fun _ hi => fetch_of_holdsInstr hi⟩

/-- Settles O41: by `step_of_size_le_pc`. -/
theorem runningOffTheEndHalts : Obligations.RunningOffTheEndHalts :=
  fun _ hrun hend => ⟨step_of_size_le_pc hrun hend, _, step_of_size_le_pc hrun hend, rfl⟩

/-- A state that is not terminal steps: no instruction stops the machine (`exec_isNext`). -/
theorem step_isNext {s : State} (h : s.status.terminal = false) : ∃ t, step s = .next t := by
  cases hs : s.status with
  | running =>
    rcases step_running_cases hs with ⟨-, hstep⟩ | ⟨-, x, -, hstep⟩ | ⟨-, i, len, -, hstep⟩
    · exact ⟨_, hstep⟩
    · exact ⟨_, hstep⟩
    · rw [hstep]; exact exec_isNext i _
  | awaitInput d => exact ⟨_, step_awaitInput hs⟩
  | halted r => rw [hs] at h; cases h
  | faulted r => rw [hs] at h; cases h

/-- A terminal state takes no step (R109). -/
theorem step_of_terminal {s : State} (h : s.status.terminal = true) : step s = .fault .invocationEnded := by
  cases hs : s.status with
  | running => rw [hs] at h; cases h
  | awaitInput d => rw [hs] at h; cases h
  | halted r => exact step_halted hs
  | faulted r => exact step_faulted hs

/-- Settles O43: by `step_halted` and `step_faulted`, and `step_isNext` for the states that are not terminal. -/
theorem terminalStatesTakeNoStep : Obligations.TerminalStatesTakeNoStep := by
  refine fun s => ⟨fun ⟨r, hs⟩ => ⟨step_halted hs, by rw [hs]; rfl⟩, fun r hs => ⟨step_faulted hs, by rw [hs]; rfl⟩, ?_⟩
  rintro (hs | ⟨p, hs⟩) <;> exact ⟨step_isNext (by rw [hs]; rfl), by rw [hs]; rfl⟩

/-! ## The status after a step -/

/-- The status an instruction ends in, by its kind (R100). -/
theorem exec_status {i : Instr} {s t : State} (h : exec i s = .next t) :
    (i = .halt ∧ t.status = .halted .haltInstr) ∨ (∃ p, i = .input p ∧ t.status = .awaitInput p) ∨
    (i.kind ≠ .halt ∧ i.kind ≠ .input ∧ (t.status = s.status ∨ ∃ c, t.status = .faulted { pc := s.pc, cause := c })) := by
  rcases exec_cases h with ⟨c, rfl, hh, hin⟩ | ⟨p1, p2, p3, f, a, b, hi, -, -, -, -, rfl⟩ | ⟨p, rfl, rfl⟩ |
    ⟨p, v, ch, rfl, -, -, rfl⟩ | ⟨p, v, ch, rfl, -, -, rfl⟩ | ⟨p1, p2, hi, ht⟩ | ⟨rfl, rfl⟩
  · exact .inr (.inr ⟨hh, hin, .inr ⟨c, rfl⟩⟩)
  · exact .inr (.inr (by rcases hi with rfl | rfl | rfl | rfl <;> exact ⟨nofun, nofun, .inl rfl⟩))
  · exact .inr (.inl ⟨p, rfl, rfl⟩)
  · exact .inr (.inr ⟨nofun, nofun, .inl rfl⟩)
  · exact .inr (.inr ⟨nofun, nofun, .inr ⟨_, rfl⟩⟩)
  · have hst : t.status = s.status := by rcases ht with rfl | ⟨x, -, -, rfl⟩ <;> rfl
    exact .inr (.inr (by rcases hi with rfl | rfl <;> exact ⟨nofun, nofun, .inl hst⟩))
  · exact .inl ⟨rfl, rfl⟩

/-- Settles O44: the rows of `Running` by `step_cases` and `exec_status`, those of `AwaitInput` by `completeInput_cases`. -/
theorem statusTransitionsAreTheTable : Obligations.StatusTransitionsAreTheTable := by
  intro s t h
  rcases step_cases h with ⟨hrun, hend, rfl⟩ | ⟨hrun, hpc, x, hx, rfl⟩ | ⟨hrun, hpc, i, hf, he⟩ | ⟨p, hwait, rfl⟩
  · exact .inl ⟨hrun, hend, rfl⟩
  · exact .inr (.inl ⟨hrun, hpc, .inl ⟨x, hx, rfl⟩⟩)
  · refine .inr (.inl ⟨hrun, hpc, .inr ?_⟩)
    rcases exec_status he with ⟨rfl, ht⟩ | ⟨p, rfl, ht⟩ | ⟨hh, hin, ht⟩
    · exact .inl ⟨hf, ht⟩
    · exact .inr (.inl ⟨p, hf, ht⟩)
    · exact .inr (.inr ⟨i, _, hf, hh, hin, ht.imp_left fun ht => ht.trans hrun⟩)
  · refine .inr (.inr ⟨p, hwait, ?_⟩)
    rcases completeInput_cases p s with ⟨hnone, he⟩ | ⟨v, ch, htake, hd, he⟩ | ⟨v, ch, htake, hd, he⟩ | ⟨ch, htake, he⟩ |
      ⟨ch, htake, he⟩ <;> rw [he]
    · exact .inl ⟨hnone, rfl⟩
    · exact .inr (.inl ⟨v, ch, htake, .inl ⟨hd, rfl, rfl⟩⟩)
    · exact .inr (.inl ⟨v, ch, htake, .inr ⟨hd, rfl⟩⟩)
    · exact .inr (.inr (.inl ⟨ch, htake, rfl⟩))
    · exact .inr (.inr (.inr ⟨ch, htake, rfl⟩))

/-! ## Faults -/

/-- The one way an instruction ends in a fault: its cause is taken at the state it began in, but for the channel of a `Put`
that answered `IOError` (R108). -/
theorem exec_faulted_cases {i : Instr} {s t : State} {record : FaultRecord} (hrun : s.status = .running)
    (h : exec i s = .next t) (ht : t.status = .faulted record) :
    ∃ c ch, t = State.raise c { s with output := ch } ∧ (ch = s.output ∨ ∃ v, s.output.put v = (.ioError, ch)) := by
  have hne : s.status ≠ .faulted record := by rw [hrun]; exact nofun
  rcases exec_cases h with ⟨c, rfl, -, -⟩ | ⟨p1, p2, p3, f, a, b, -, -, -, -, -, rfl⟩ | ⟨p, -, rfl⟩ |
    ⟨p, v, ch, -, -, -, rfl⟩ | ⟨p, v, ch, -, -, hput, rfl⟩ | ⟨p1, p2, -, rfl | ⟨x, -, -, rfl⟩⟩ | ⟨-, rfl⟩
  · exact ⟨c, s.output, rfl, .inl rfl⟩
  · exact absurd ht hne
  · cases ht
  · exact absurd ht hne
  · exact ⟨.ioError, ch, rfl, .inr ⟨v, hput⟩⟩
  · exact absurd ht hne
  · exact absurd ht hne
  · cases ht

/-- The one way a step ends in a fault: its cause is taken at the state it began in, but for the channels. -/
theorem step_faulted_cases {s t : State} {record : FaultRecord} (h : step s = .next t)
    (ht : t.status = .faulted record) :
    ∃ c ich och, t = State.raise c { s with input := ich, output := och } ∧ (s.status = .running → ich = s.input) ∧
      (och = s.output ∨ ∃ v, s.output.put v = (.ioError, och)) := by
  rcases step_cases h with ⟨-, -, rfl⟩ | ⟨-, -, x, -, rfl⟩ | ⟨hrun, -, i, -, he⟩ | ⟨p, hwait, rfl⟩
  · cases ht
  · exact ⟨_, s.input, s.output, rfl, fun _ => rfl, .inl rfl⟩
  · obtain ⟨c, ch, rfl, hch⟩ := exec_faulted_cases (s := s.latched i i.length) hrun he ht
    exact ⟨c, s.input, ch, rfl, fun _ => rfl, hch⟩
  · have hwaits : ∀ {ich : InputChannel}, s.status = .running → ich = s.input := fun hrun => by
      rw [hwait] at hrun; cases hrun
    rcases completeInput_cases p s with ⟨-, he⟩ | ⟨v, ch, -, -, he⟩ | ⟨v, ch, -, -, he⟩ | ⟨ch, -, he⟩ | ⟨ch, -, he⟩ <;>
      rw [he] at ht ⊢
    · rw [hwait] at ht; cases ht
    · cases ht
    all_goals exact ⟨_, ch, s.output, rfl, hwaits, .inl rfl⟩

/-- Settles O45: a faulting step is a `State.raise` (`step_faulted_cases`), and a `Put` that fails leaves what is recorded. -/
theorem faultsArePrecise : Obligations.FaultsArePrecise := by
  intro s t record h ht
  obtain ⟨c, ich, och, rfl, hin, hout⟩ := step_faulted_cases h ht
  cases ht
  refine ⟨rfl, rfl, rfl, rfl, hin, fun values hs => ?_, fun lines puts answers hs => ?_⟩
  · rcases hout with rfl | ⟨v, hput⟩
    · exact hs
    · rw [hs] at hput; cases hput
  · rcases hout with rfl | ⟨v, hput⟩
    · exact ⟨puts, answers, hs⟩
    · rcases OutputChannel.put_cases v s.output with ⟨values, hs', -⟩ | ⟨lines', puts', answers', hs', hok | herr⟩
      · rw [hs] at hs'; cases hs'
      · rw [hput] at hok; cases hok
      · rw [hs] at hs'; cases hs'
        rw [hput] at herr
        exact ⟨_, _, (Prod.mk.inj herr).2⟩

/-! ## Memory and parameters -/

/-- What an instruction does to memory: nothing, or one store at the destination of an ADD, MUL, LT or EQ. -/
theorem exec_mem {i : Instr} {s t : State} (h : exec i s = .next t) :
    t.cfg = s.cfg ∧ (t.mem = s.mem ∨ ∃ p1 p2 p3 v,
      (i = .add p1 p2 p3 ∨ i = .multiply p1 p2 p3 ∨ i = .lessThan p1 p2 p3 ∨ i = .equals p1 p2 p3) ∧
      s.mem.inBounds p3.raw = true ∧ t.mem = s.mem.poke p3.raw.toNat v) := by
  rcases exec_cases h with ⟨c, rfl, -, -⟩ | ⟨p1, p2, p3, f, a, b, hi, -, -, -, hd, rfl⟩ | ⟨p, -, rfl⟩ |
    ⟨p, v, ch, -, -, -, rfl⟩ | ⟨p, v, ch, -, -, -, rfl⟩ | ⟨p1, p2, -, rfl | ⟨x, -, -, rfl⟩⟩ | ⟨-, rfl⟩
  case inr.inl => exact ⟨rfl, .inr ⟨p1, p2, p3, _, hi, hd, rfl⟩⟩
  all_goals exact ⟨rfl, .inl rfl⟩

/-- Settles O47: the one store of a step is that of `exec_mem` or of an answered IN, at the address `writeAddr` gives. -/
theorem onlyFiveInstructionsWriteMemory : Obligations.OnlyFiveInstructionsWriteMemory := by
  intro s t hwf h
  rcases step_cases h with ⟨-, -, rfl⟩ | ⟨-, -, x, -, rfl⟩ | ⟨hrun, -, i, hf, he⟩ | ⟨p, hwait, rfl⟩
  · exact ⟨rfl, rfl, .inl rfl⟩
  · exact ⟨rfl, rfl, .inl rfl⟩
  · obtain ⟨hcfg, hmem | ⟨p1, p2, p3, v, hi, hd, hmem⟩⟩ := exec_mem he
    · exact ⟨by rw [hmem, State.latched_mem], hcfg, .inl hmem⟩
    · rw [State.latched_mem] at hd hmem
      refine ⟨by rw [hmem, Memory.poke_size], hcfg, .inr (.inr ⟨i, p1, p2, p3, _, _, hrun, hf, hi,
        writeAddr_of_inBounds hd, fun a ha => ?_⟩)⟩
      rw [hmem, Memory.peek_poke_other hwf ha]
  · rcases completeInput_cases p s with ⟨-, he⟩ | ⟨v, ch, -, hd, he⟩ | ⟨v, ch, -, -, he⟩ | ⟨ch, -, he⟩ | ⟨ch, -, he⟩ <;>
      rw [he]
    · exact ⟨rfl, rfl, .inl rfl⟩
    · exact ⟨rfl, rfl, .inr (.inl ⟨p, _, hwait, writeAddr_of_inBounds hd, fun a ha => Memory.peek_poke_other hwf ha v⟩)⟩
    all_goals exact ⟨rfl, rfl, .inl rfl⟩

/-! ## Channels -/

/-- What an instruction does to the input channel: the issue of an IN prompts it, nothing else touches it. -/
theorem exec_inputChannel {i : Instr} {s t : State} (h : exec i s = .next t) :
    (∃ p, i = .input p ∧ t.input = s.input.prompted) ∨ t.input = s.input := by
  rcases exec_cases h with ⟨c, rfl, -, -⟩ | ⟨p1, p2, p3, f, a, b, -, -, -, -, -, rfl⟩ | ⟨p, rfl, rfl⟩ |
    ⟨p, v, ch, -, -, -, rfl⟩ | ⟨p, v, ch, -, -, -, rfl⟩ | ⟨p1, p2, -, rfl | ⟨x, -, -, rfl⟩⟩ | ⟨-, rfl⟩
  case inr.inr.inl => exact .inl ⟨p, rfl, rfl⟩
  all_goals exact .inr rfl

/-- What an instruction does to the output channel: one `Put` by an OUT whose source can be read, nothing else touches it. -/
theorem exec_outputChannel {i : Instr} {s t : State} (h : exec i s = .next t) :
    (∃ p v, i = .output p ∧ readVal s p = .ok v ∧ t.output = (s.output.put v).2) ∨
    ((∀ p v, i = .output p → readVal s p ≠ .ok v) ∧ t.output = s.output) := by
  rcases exec_shape h with ⟨p1, p2, p3, f, hi, rfl⟩ | ⟨p1, p2, test, hi, rfl⟩ | ⟨p, rfl, rfl⟩ | ⟨p, rfl, hp⟩ | ⟨rfl, rfl⟩
  · refine .inr ⟨by rcases hi with rfl | rfl | rfl | rfl <;> exact nofun, ?_⟩
    rcases alu_answers f p1 p2 p3 s with ⟨c, he⟩ | ⟨a, b, -, -, -, -, he⟩ <;> rw [he] <;> rfl
  · refine .inr ⟨by rcases hi with rfl | rfl <;> exact nofun, ?_⟩
    rcases jump_answers test p1 p2 s with ⟨c, he⟩ | he | ⟨x, -, -, he⟩ <;> rw [he] <;> rfl
  · exact .inr ⟨nofun, rfl⟩
  · rcases execOutput_cases p s with ⟨c, hc, he⟩ | ⟨v, ch, hv, hput, he⟩ | ⟨v, ch, hv, hput, he⟩ <;>
      obtain rfl := Host.Outcome.next.inj (he.symm.trans hp)
    · exact .inr ⟨fun p' v hp => by cases hp; rw [hc]; exact nofun, rfl⟩
    · exact .inl ⟨p, v, rfl, hv, by rw [hput]; rfl⟩
    · exact .inl ⟨p, v, rfl, hv, by rw [hput]; rfl⟩
  · exact .inr ⟨nofun, rfl⟩

/-- The completion of an IN touches no output. -/
theorem completeInput_output (d : Param) (s : State) : (completeInput d s).output = s.output := by
  rcases completeInput_cases d s with ⟨-, he⟩ | ⟨v, ch, -, -, he⟩ | ⟨v, ch, -, -, he⟩ | ⟨ch, -, he⟩ | ⟨ch, -, he⟩ <;>
    rw [he]
  all_goals rfl

/-- Settles O30: by `exec_inputChannel` and `exec_outputChannel` in `Running`, by `completeInput_input` and
`completeInput_output` of a waiting IN. -/
theorem onlyInAndOutTouchTheChannels : Obligations.OnlyInAndOutTouchTheChannels := by
  intro s t h
  rcases step_cases h with ⟨-, -, rfl⟩ | ⟨-, -, x, -, rfl⟩ | ⟨hrun, -, i, hf, he⟩ | ⟨p, hwait, rfl⟩
  · exact ⟨.inl rfl, .inl rfl⟩
  · exact ⟨.inl rfl, .inl rfl⟩
  · constructor
    · rcases exec_inputChannel he with ⟨p, rfl, ht⟩ | ht
      · exact .inr (.inl ⟨hrun, ht, p, hf⟩)
      · exact .inl ht
    · rcases exec_outputChannel he with ⟨p, v, rfl, hv, ht⟩ | ⟨-, ht⟩
      · exact .inr ⟨hrun, p, v, hf, hv, ht⟩
      · exact .inl ht
  · refine ⟨?_, .inl (completeInput_output p s)⟩
    cases htake : s.input.take s.cfg.width with
    | none => exact .inl (by rw [completeInput_of_none htake])
    | some r =>
      obtain ⟨ans, ch⟩ := r
      exact .inr (.inr ⟨p, ans, hwait, by rw [completeInput_input htake]⟩)

end Sys2Proof.Machine
end

section
/-! PROOF. Parts of the state that instructions do not observe: the channels but through IN and OUT, and `jump_target_eval` but
by a jump (43_control.md R173, 44_channels.md R192, R196, R199). -/

namespace Sys2Proof.Machine

/-! ## Updates the datapaths do not observe -/

/-- An update of a part of the state that no datapath reads: what it reads stays, and every end of an instruction commutes
with the update. -/
structure Unobserved (g : State → State) : Prop where
  mem : ∀ s, (g s).mem = s.mem
  width : ∀ s, (g s).cfg.width = s.cfg.width
  raise : ∀ s c, (g s).raise c = g (s.raise c)
  advance : ∀ s n, (g s).advance n = g (s.advance n)
  jumpTo : ∀ s n, (g s).jumpTo n = g (s.jumpTo n)
  haltWith : ∀ s r, (g s).haltWith r = g (s.haltWith r)
  withMem : ∀ s m, (g s).withMem m = g (s.withMem m)

theorem unobserved_withInput (ch : InputChannel) : Unobserved fun s => { s with input := ch } :=
  ⟨fun _ => rfl, fun _ => rfl, fun _ _ => rfl, fun _ _ => rfl, fun _ _ => rfl, fun _ _ => rfl, fun _ _ => rfl⟩

theorem unobserved_withOutput (ch : OutputChannel) : Unobserved fun s => { s with output := ch } :=
  ⟨fun _ => rfl, fun _ => rfl, fun _ _ => rfl, fun _ _ => rfl, fun _ _ => rfl, fun _ _ => rfl, fun _ _ => rfl⟩

/-- The state under the other value of `jump_target_eval`, the width being no part of it. -/
def State.withTargetEval (e : JumpTargetEval) (s : State) : State := { s with cfg := { s.cfg with jumpTargetEval := e } }

theorem unobserved_withTargetEval (e : JumpTargetEval) : Unobserved (State.withTargetEval e) :=
  ⟨fun _ => rfl, fun _ => rfl, fun _ _ => rfl, fun _ _ => rfl, fun _ _ => rfl, fun _ _ => rfl, fun _ _ => rfl⟩

namespace Unobserved

variable {g : State → State} (hg : Unobserved g)
include hg

theorem readVal (s : State) (p : Param) : Machine.readVal (g s) p = Machine.readVal s p := readVal_congr (hg.mem s) p

/-- The ALU datapath ends alike before and after the update. -/
theorem orRaise_alu (f : Int → Int → Int) (p1 p2 p3 : Param) (s : State) :
    (g s).orRaise (alu f p1 p2 p3 (g s)) = g (s.orRaise (alu f p1 p2 p3 s)) := by
  cases h : alu f p1 p2 p3 s with
  | ok t =>
    obtain ⟨a, b, ha, hb, hr, hd, rfl⟩ := alu_eq_ok.1 h
    rw [alu_eq_ok.2 ⟨a, b, by rwa [hg.readVal], by rwa [hg.readVal], by rwa [hg.width], by rwa [hg.mem], rfl⟩,
      State.orRaise_ok, State.orRaise_ok, hg.withMem, hg.advance, hg.mem]
  | error c =>
    have h' : alu f p1 p2 p3 (g s) = .error c :=
      alu_eq_error.2 (by simpa only [hg.readVal, hg.width, hg.mem] using alu_eq_error.1 h)
    rw [h', State.orRaise_error, State.orRaise_error, hg.raise]

/-- The jump datapath ends alike before and after an update that keeps `jump_target_eval`. -/
theorem orRaise_jump {s : State} (heval : (g s).cfg.jumpTargetEval = s.cfg.jumpTargetEval) (test : Int → Bool)
    (p1 p2 : Param) : (g s).orRaise (jump test p1 p2 (g s)) = g (s.orRaise (jump test p1 p2 s)) := by
  cases h : jump test p1 p2 s with
  | ok t =>
    have h' : jump test p1 p2 (g s) = .ok (g t) := by
      obtain ⟨c, hc, ⟨ht, x, hx, h0, rfl⟩ | ⟨ht, rfl, heager⟩⟩ := jump_eq_ok.1 h
      · exact jump_eq_ok.2 ⟨c, by rwa [hg.readVal], .inl ⟨ht, x, by rwa [hg.readVal], h0, (hg.jumpTo _ _).symm⟩⟩
      · exact jump_eq_ok.2 ⟨c, by rwa [hg.readVal],
          .inr ⟨ht, (hg.advance _ _).symm, by rwa [heval, hg.readVal]⟩⟩
    rw [h', State.orRaise_ok, State.orRaise_ok]
  | error e =>
    have h' : jump test p1 p2 (g s) = .error e :=
      jump_eq_error.2 (by simpa only [hg.readVal, heval] using jump_eq_error.1 h)
    rw [h', State.orRaise_error, State.orRaise_error, hg.raise]

/-- An instruction other than IN and OUT ends alike before and after an update that keeps `jump_target_eval`. -/
theorem exec {i : Instr} {s t : State} (heval : (g s).cfg.jumpTargetEval = s.cfg.jumpTargetEval)
    (hin : i.kind ≠ .input) (hout : i.kind ≠ .output) (h : Machine.exec i s = .next t) :
    Machine.exec i (g s) = .next (g t) := by
  cases i with
  | add | multiply | lessThan | equals => cases h; exact congrArg _ (hg.orRaise_alu _ _ _ _ s)
  | jumpIfTrue | jumpIfFalse => cases h; exact congrArg _ (hg.orRaise_jump heval _ _ _)
  | input => exact absurd rfl hin
  | output => exact absurd rfl hout
  | halt => cases h; exact congrArg _ (hg.haltWith s _)

/-- An OUT ends alike before and after an update of anything but the output channel. -/
theorem exec_output {p : Param} {s t : State} (hout : (g s).output = s.output)
    (hset : ∀ ch, { g s with output := ch } = g { s with output := ch }) (h : Machine.exec (.output p) s = .next t) :
    Machine.exec (.output p) (g s) = .next (g t) := by
  rcases execOutput_cases p s with ⟨c, hc, he⟩ | ⟨v, ch, hv, hput, he⟩ | ⟨v, ch, hv, hput, he⟩ <;>
    obtain rfl := Host.Outcome.next.inj (he.symm.trans h)
  · rw [exec_output_of_error (by rwa [hg.readVal]), hg.raise]
  · have hend := exec_output_of_put_ok (s := g s) (by rwa [hg.readVal]) (by rwa [hout])
    rw [← hg.advance, ← hset ch]
    exact hend
  · have hend := exec_output_of_put_ioError (s := g s) (by rwa [hg.readVal]) (by rwa [hout])
    rw [← hg.raise, ← hset ch]
    exact hend

end Unobserved

/-! ## `jump_target_eval` -/

/-- Under `eager` a jump ends as under `lazy`, or it is not taken and its target cannot be read. -/
theorem exec_jump_eager {i : Instr} {test : Int → Bool} {p1 p2 : Param} {s t : State}
    (hexec : ∀ s, exec i s = .next (s.orRaise (jump test p1 p2 s))) (hlazy : s.cfg.jumpTargetEval = .lazy)
    (h : exec i s = .next t) :
    exec i (s.withTargetEval .eager) = .next (t.withTargetEval .eager) ∨
      ∃ c, readVal s p1 = .ok c ∧ test c = false ∧ p2.mode = .position ∧ s.mem.inBounds p2.raw = false ∧
        t.pc = s.pc + 3 := by
  obtain rfl := Host.Outcome.next.inj ((hexec s).symm.trans h)
  rw [hexec]
  cases hjump : jump test p1 p2 s with
  | ok t =>
    obtain ⟨c, hc, ⟨ht, x, hx, h0, rfl⟩ | ⟨ht, rfl, -⟩⟩ := jump_eq_ok.1 hjump
    · exact .inl (congrArg _ (orRaise_jump_taken (s := s.withTargetEval .eager) hc ht hx h0))
    · cases hx : readVal s p2 with
      | ok x =>
        exact .inl (congrArg _ (orRaise_jump_not_taken (s := s.withTargetEval .eager) hc ht (.inr ⟨x, hx⟩)))
      | error e =>
        obtain ⟨hm, hb, -⟩ := readVal_eq_error.1 hx
        exact .inr ⟨c, hc, ht, hm, hb, rfl⟩
  | error e =>
    have heager : jump test p1 p2 (s.withTargetEval .eager) = .error e := by
      rcases jump_eq_error.1 hjump with h1 | ⟨c, hc, ⟨ht, h2 | ⟨x, hx, hneg, rfl⟩⟩ | ⟨-, heager, -⟩⟩
      · exact jump_error_of_condition h1
      · exact jump_error_of_target hc h2 (.inl ht)
      · exact jump_error_of_negative hc ht hx hneg
      · rw [hlazy] at heager; cases heager
    exact .inl (congrArg _ (orRaise_of_error heager))

/-- Settles O36: all but the jumps do not observe `jump_target_eval`; the jumps by `exec_jump_eager`. -/
theorem lazyAndEagerDifferInOneCase : Obligations.LazyAndEagerDifferInOneCase := by
  intro i s t hlazy h
  have hg := unobserved_withTargetEval .eager
  have ht : { t with cfg := { s.cfg with jumpTargetEval := .eager } } = t.withTargetEval .eager := by
    rw [State.withTargetEval, (exec_mem h).1]
  rw [ht]
  cases i with
  | add | multiply | lessThan | equals => cases h; exact .inl (congrArg _ (hg.orRaise_alu _ _ _ _ s))
  | input p => cases h; exact .inl rfl
  | output p => exact .inl (hg.exec_output rfl (fun _ => rfl) h)
  | halt => cases h; exact .inl rfl
  | jumpIfTrue p1 p2 =>
    refine (exec_jump_eager (fun _ => rfl) hlazy h).imp_right fun ⟨c, hc, htest, hm, hb, hpc⟩ => ?_
    exact ⟨p1, p2, c, hc, .inl ⟨rfl, by simpa [isNonzero] using htest⟩, hm, hb, hpc⟩
  | jumpIfFalse p1 p2 =>
    refine (exec_jump_eager (fun _ => rfl) hlazy h).imp_right fun ⟨c, hc, htest, hm, hb, hpc⟩ => ?_
    exact ⟨p1, p2, c, hc, .inr ⟨rfl, by simpa [isZero] using htest⟩, hm, hb, hpc⟩

/-! ## The channels -/

/-- Two machines in lockstep: a relation that one step keeps is kept by runs of every length. -/
theorem stepsTo_lockstep {R : State → State → Prop}
    (hR : ∀ {s s' t}, R s s' → step s = .next t → ∃ t', step s' = .next t' ∧ R t t') {n : Nat} {s s' t : State}
    (h : R s s') (hn : stepsTo n s = some t) : ∃ t', stepsTo n s' = some t' ∧ R t t' := by
  induction n generalizing s s' with
  | zero => cases hn; exact ⟨s', rfl, h⟩
  | succ n ih =>
    obtain ⟨u, hu, hrest⟩ := stepsTo_succ.1 hn
    obtain ⟨u', hu', hRu⟩ := hR h hu
    obtain ⟨t', ht', hRt⟩ := ih hRu hrest
    exact ⟨t', stepsTo_succ.2 ⟨u', hu', ht'⟩, hRt⟩

/-- The completion of an IN takes from the channel its answer and the channel it leaves, and looks at no more of it. -/
theorem completeInput_withInput {d : Param} {s : State} {ans : TakeAnswer} {ch ch' rest : InputChannel}
    (h : s.input.take s.cfg.width = some (ans, ch)) (h' : ch'.take s.cfg.width = some (ans, rest)) :
    completeInput d { s with input := ch' } = { completeInput d s with input := rest } := by
  cases ans with
  | value v =>
    cases hd : s.mem.inBounds d.raw with
    | true => rw [completeInput_of_value h hd, completeInput_of_value (s := { s with input := ch' }) h' hd]
    | false => rw [completeInput_of_outOfBounds h hd, completeInput_of_outOfBounds (s := { s with input := ch' }) h' hd]
  | exhausted =>
    rw [completeInput_of_exhausted h, completeInput_of_exhausted (s := { s with input := ch' }) h']; rfl
  | ioError => rw [completeInput_of_ioError h, completeInput_of_ioError (s := { s with input := ch' }) h']; rfl

/-- The completion of an IN does not observe the output channel. -/
theorem completeInput_withOutput (d : Param) (s : State) (ch : OutputChannel) :
    completeInput d { s with output := ch } = { completeInput d s with output := ch } := by
  rcases completeInput_cases d s with ⟨h, he⟩ | ⟨v, rest, h, hd, he⟩ | ⟨v, rest, h, hd, he⟩ | ⟨rest, h, he⟩ | ⟨rest, h, he⟩ <;>
    rw [he]
  · exact completeInput_of_none h
  · exact completeInput_of_value h hd
  · exact completeInput_of_outOfBounds h hd
  · exact completeInput_of_exhausted h
  · exact completeInput_of_ioError h

/-- An instruction does not observe an input channel that a prompt does not change. -/
theorem exec_withInput {i : Instr} {s t : State} {ch : InputChannel} (hch : ch.prompted = ch) (h : exec i s = .next t) :
    exec i { s with input := ch } = .next { t with input := ch } := by
  have hg := unobserved_withInput ch
  cases i with
  | input p => cases h; rw [exec, execInput, hch]
  | output p => exact hg.exec_output rfl (fun _ => rfl) h
  | _ => exact hg.exec rfl nofun nofun h

/-- An instruction other than OUT neither changes nor observes the output channel. -/
theorem exec_withOutput {i : Instr} {s t : State} (hi : i.kind ≠ .output) (h : exec i s = .next t) :
    t.output = s.output ∧ ∀ ch, exec i { s with output := ch } = .next { t with output := ch } := by
  constructor
  · rcases exec_outputChannel h with ⟨p, v, rfl, -, -⟩ | ⟨-, ht⟩
    · exact absurd rfl hi
    · exact ht
  · intro ch
    cases i with
    | input p => cases h; rfl
    | output p => exact absurd rfl hi
    | _ => exact (unobserved_withOutput ch).exec rfl nofun nofun h

/-- An OUT adds the same to every Collecting output: the value its source reads as, or nothing. -/
theorem exec_output_withCollected {p : Param} {s t : State} {values : List Int} (hs : s.output = .collecting values)
    (h : exec (.output p) s = .next t) :
    ∃ added, t.output = .collecting (values ++ added) ∧ ∀ values',
      exec (.output p) { s with output := .collecting values' } =
        .next { t with output := .collecting (values' ++ added) } := by
  cases hv : readVal s p with
  | error c =>
    obtain rfl := Host.Outcome.next.inj ((exec_output_of_error hv).symm.trans h)
    refine ⟨[], by rw [List.append_nil]; exact hs, fun values' => ?_⟩
    rw [List.append_nil]
    exact exec_output_of_error hv
  | ok v =>
    have hput : s.output.put v = (.ok, .collecting (values ++ [v])) := by rw [hs]; rfl
    obtain rfl := Host.Outcome.next.inj ((exec_output_of_put_ok hv hput).symm.trans h)
    exact ⟨[v], rfl, fun values' => exec_output_of_put_ok hv rfl⟩

/-- An instruction adds the same to every Collecting output, and does not observe what it holds. -/
theorem exec_withCollected {i : Instr} {s t : State} {values : List Int} (hs : s.output = .collecting values)
    (h : exec i s = .next t) :
    ∃ added, t.output = .collecting (values ++ added) ∧ ∀ values',
      exec i { s with output := .collecting values' } = .next { t with output := .collecting (values' ++ added) } := by
  cases i with
  | output p => exact exec_output_withCollected hs h
  | _ =>
    obtain ⟨ht, hexec⟩ := exec_withOutput (by exact nofun) h
    exact ⟨[], by rw [List.append_nil, ht, hs], fun values' => by rw [List.append_nil]; exact hexec _⟩

/-- A step adds the same to every Collecting output, and does not observe what it holds. -/
theorem step_withCollected {s t : State} {values : List Int} (hs : s.output = .collecting values)
    (h : step s = .next t) :
    ∃ added, t.output = .collecting (values ++ added) ∧ ∀ values',
      step { s with output := .collecting values' } = .next { t with output := .collecting (values' ++ added) } := by
  rcases step_cases h with ⟨hrun, hend, rfl⟩ | ⟨hrun, hpc, x, hx, rfl⟩ | ⟨hrun, -, i, hf, he⟩ | ⟨d, hwait, rfl⟩
  · exact ⟨[], by rw [List.append_nil]; exact hs, fun values' => by
      rw [List.append_nil]; exact step_of_size_le_pc hrun hend⟩
  · exact ⟨[], by rw [List.append_nil]; exact hs, fun values' => by
      rw [List.append_nil]; exact step_of_fetch_eq_error hrun hpc hx⟩
  · obtain ⟨added, ht, hexec⟩ := exec_withCollected (s := s.latched i i.length) hs he
    refine ⟨added, ht, fun values' => ?_⟩
    exact (step_of_fetch_eq_ok (s := { s with output := .collecting values' }) hrun hf).trans (hexec values')
  · refine ⟨[], by rw [List.append_nil, completeInput_output, hs], fun values' => ?_⟩
    rw [List.append_nil, ← completeInput_withOutput]
    exact step_awaitInput hwait

/-- The two runs of R196: one Collecting output holds `values`, the other `values'`, and both the same values after them. -/
def CollectedAlike (values values' : List Int) (s s' : State) : Prop :=
  ∃ added, s.output = .collecting (values ++ added) ∧ s' = { s with output := .collecting (values' ++ added) }

/-- The two runs stay alike at every step. -/
theorem CollectedAlike.step {values values' : List Int} {s s' t : State} (h : CollectedAlike values values' s s')
    (hstep : step s = .next t) : ∃ t', Machine.step s' = .next t' ∧ CollectedAlike values values' t t' := by
  obtain ⟨added, hs, rfl⟩ := h
  obtain ⟨more, ht, hstep'⟩ := step_withCollected hs hstep
  exact ⟨_, hstep' _, added ++ more, by rw [ht, List.append_assoc], by rw [List.append_assoc]⟩

/-- Settles O32: the runs are in lockstep by `CollectedAlike.step`. -/
theorem collectedOutputIsNeverObserved : Obligations.CollectedOutputIsNeverObserved := by
  intro n s t values values' h
  have hstart : CollectedAlike values values' { s with output := .collecting values } { s with output := .collecting values' } :=
    ⟨[], by rw [List.append_nil], by rw [List.append_nil]⟩
  obtain ⟨t', ht', added, ht, rfl⟩ := stepsTo_lockstep CollectedAlike.step hstart h
  exact ⟨added, ht, ht'⟩

/-! ## A queue and its text -/

/-- A queue of Words and its text form answer alike, and what they leave is a queue of Words and its text form (R199). -/
theorem take_linesOfWords {width : Nat} {queue : List Int} (h : queue.all (isWord width) = true) :
    ∃ ans rest, (InputChannel.scripted queue).take width = some (ans, .scripted rest) ∧
      (InputChannel.scriptedText (linesOfWords queue)).take width = some (ans, .scriptedText (linesOfWords rest)) ∧
      rest.all (isWord width) = true := by
  cases queue with
  | nil => exact ⟨.exhausted, [], rfl, rfl, rfl⟩
  | cons v rest =>
    rw [List.all_cons, Bool.and_eq_true] at h
    refine ⟨.value v, rest, rfl, ?_, h.2⟩
    simp only [InputChannel.take, takeLine_linesOfWords_cons, answerOfLine_of_some (parseInteger_decimal h.1)]

/-- The two cores of R199: one has a queue of Words, the other its text form, and they agree in all else. -/
def QueueAsText (s s' : State) : Prop :=
  ∃ queue, s.input = .scripted queue ∧ queue.all (isWord s.cfg.width) = true ∧
    s' = { s with input := .scriptedText (linesOfWords queue) }

/-- The completion of an IN writes no parameter. -/
theorem completeInput_cfg (d : Param) (s : State) : (completeInput d s).cfg = s.cfg := by
  rcases completeInput_cases d s with ⟨-, he⟩ | ⟨v, ch, -, -, he⟩ | ⟨v, ch, -, -, he⟩ | ⟨ch, -, he⟩ | ⟨ch, -, he⟩ <;>
    rw [he]
  all_goals rfl

/-- Issuing an IN leaves a queue as it is, so no instruction changes it (log 9). -/
theorem exec_keeps_scripted {i : Instr} {s t : State} {queue : List Int} (hs : s.input = .scripted queue)
    (h : exec i s = .next t) : t.input = .scripted queue := by
  rcases exec_inputChannel h with ⟨p, -, ht⟩ | ht
  · rw [ht, hs]; rfl
  · rw [ht, hs]

/-- The two cores stay alike at every step. -/
theorem QueueAsText.step {s s' t : State} (h : QueueAsText s s') (hstep : step s = .next t) :
    ∃ t', Machine.step s' = .next t' ∧ QueueAsText t t' := by
  obtain ⟨queue, hs, hwords, rfl⟩ := h
  rcases step_cases hstep with ⟨hrun, hend, rfl⟩ | ⟨hrun, hpc, x, hx, rfl⟩ | ⟨hrun, -, i, hf, he⟩ | ⟨d, hwait, rfl⟩
  · exact ⟨_, step_of_size_le_pc hrun hend, queue, hs, hwords, rfl⟩
  · exact ⟨_, step_of_fetch_eq_error hrun hpc hx, queue, hs, hwords, rfl⟩
  · have hcfg : t.cfg = s.cfg := (exec_mem he).1
    have hrow := step_of_fetch_eq_ok (s := { s with input := .scriptedText (linesOfWords queue) }) hrun hf
    exact ⟨_, hrow.trans (exec_withInput rfl he), queue, exec_keeps_scripted (s := s.latched i i.length) hs he,
      by rwa [hcfg], rfl⟩
  · obtain ⟨ans, rest, htake, htext, hrest⟩ := take_linesOfWords hwords
    rw [← hs] at htake
    refine ⟨_, step_awaitInput hwait, rest, completeInput_input htake, ?_, completeInput_withInput htake htext⟩
    rwa [completeInput_cfg]

/-- Settles O27: the runs are in lockstep by `QueueAsText.step`. -/
theorem textBackedChannelRunsLikeTheQueue : Obligations.TextBackedChannelRunsLikeTheQueue := by
  intro n s t queue hwords h
  have hstart : QueueAsText { s with input := .scripted queue } { s with input := .scriptedText (linesOfWords queue) } :=
    ⟨queue, rfl, hwords, rfl⟩
  obtain ⟨t', ht', queue', ht, -, rfl⟩ := stepsTo_lockstep QueueAsText.step hstart h
  exact ⟨queue', ht, ht'⟩

end Sys2Proof.Machine
end

section
/-! PROOF. Runs: what they take and put, runs under fuel, and new invocations (40_engine.md R109 to R113, 44_channels.md R198,
70_reset_and_hazards.md R263). -/

namespace Sys2Proof.Machine

/-! ## What a step takes and puts -/

/-- A fetch that fails puts nothing. -/
theorem State.putByStep_of_fetch_eq_error {s : State} {x : DecodeError} (hf : fetch s = .error x) : s.putByStep = [] := by
  rw [State.putByStep, hf]
  split <;> rfl

/-- At or above `N` there is nothing to decode. -/
theorem fetch_of_size_le_pc {s : State} (h : s.mem.size ≤ s.pc) : fetch s = .error .unexpectedEnd := by
  have hview : s.mem.view s.pc longestInstr = [] := by
    rw [← List.length_eq_zero_iff, Memory.length_view]
    omega
  rw [fetch, hview, decode]

/-- A fetched instruction that is no OUT with a readable source puts nothing. -/
theorem State.putByStep_of_no_put {s : State} {i : Instr} {len : Nat} (hf : fetch s = .ok (i, len))
    (h : ∀ p v, i = .output p → readVal s p ≠ .ok v) : s.putByStep = [] := by
  cases i with
  | output p =>
    cases hv : readVal s p with
    | error c => rw [State.putByStep, hf]; simp only [putSource, hv]; split <;> rfl
    | ok v => exact absurd hv (h p v rfl)
  | _ => exact State.putByStep_of_other hf rfl

/-- A `Take` of a queue leaves the queue without its head (R193). -/
theorem take_scripted (width : Nat) (queue : List Int) :
    ∃ ans, (InputChannel.scripted queue).take width = some (ans, .scripted (queue.drop 1)) := by
  cases queue with
  | nil => exact ⟨.exhausted, rfl⟩
  | cons v rest => exact ⟨.value v, rfl⟩

/-- What a step leaves of a Scripted queue and of a Collecting sequence: the queue without what it took, the sequence with what
it put. -/
theorem step_channels {s t : State} {queue values : List Int} (hin : s.input = .scripted queue)
    (hout : s.output = .collecting values) (h : step s = .next t) :
    (∃ left, queue = s.takenByStep ++ left ∧ t.input = .scripted left) ∧
      t.output = .collecting (values ++ s.putByStep) := by
  rcases step_cases h with ⟨hrun, hend, rfl⟩ | ⟨hrun, -, x, hx, rfl⟩ | ⟨hrun, -, i, hf, he⟩ | ⟨d, hwait, rfl⟩
  · rw [State.takenByStep_of_running hrun, State.putByStep_of_fetch_eq_error (fetch_of_size_le_pc hend), List.append_nil]
    exact ⟨⟨queue, rfl, hin⟩, hout⟩
  · rw [State.takenByStep_of_running hrun, State.putByStep_of_fetch_eq_error hx, List.append_nil]
    exact ⟨⟨queue, rfl, hin⟩, hout⟩
  · rw [State.takenByStep_of_running hrun]
    refine ⟨⟨queue, rfl, exec_keeps_scripted (s := s.latched i i.length) hin he⟩, ?_⟩
    rcases exec_outputChannel he with ⟨p, v, rfl, hv, ht⟩ | ⟨hnone, ht⟩
    · rw [ht, State.putByStep_of_output hrun hf hv, State.latched_output, hout]; rfl
    · rw [ht, State.putByStep_of_no_put hf hnone, List.append_nil]; exact hout
  · rw [State.takenByStep_of_scripted hwait hin, State.putByStep_of_awaitInput hwait, List.append_nil, completeInput_output]
    obtain ⟨ans, htake⟩ := take_scripted s.cfg.width queue
    rw [← hin] at htake
    exact ⟨⟨queue.drop 1, (List.take_append_drop 1 queue).symm, completeInput_input htake⟩, hout⟩

/-- Settles O31: by induction on the number of steps, with `step_channels` for the first. -/
theorem runsKeepChannelState : Obligations.RunsKeepChannelState := by
  intro n
  induction n with
  | zero =>
    intro s t queue values hin hout h
    cases h
    exact ⟨⟨queue, rfl, hin⟩, by rw [alongRun, List.append_nil, hout]⟩
  | succ n ih =>
    intro s t queue values hin hout h
    obtain ⟨u, hu, hrest⟩ := stepsTo_succ.1 h
    obtain ⟨⟨left, hqueue, hin'⟩, hout'⟩ := step_channels hin hout hu
    obtain ⟨⟨left', hleft, hin''⟩, hout''⟩ := ih u t left _ hin' hout' hrest
    rw [alongRun_succ hu, alongRun_succ hu]
    exact ⟨⟨left', by rw [hqueue, hleft, List.append_assoc], hin''⟩, by rw [hout'', List.append_assoc]⟩

/-! ## Runs under fuel -/

/-- A terminal state is its own end under any fuel. -/
theorem runToEnd_of_terminal {s : State} (h : s.status.terminal = true) (fuel : Nat) : runToEnd fuel s = some s := by
  cases fuel <;> rw [runToEnd, if_pos h]

/-- A state that is not terminal has not ended without fuel. -/
theorem runToEnd_zero {s : State} (h : s.status.terminal = false) : runToEnd 0 s = none := by
  rw [runToEnd, if_neg (by rw [h]; exact Bool.false_ne_true)]

/-- A state that is not terminal ends as its next state does, with one step less of fuel. -/
theorem runToEnd_succ {s u : State} (h : s.status.terminal = false) (hu : step s = .next u) (fuel : Nat) :
    runToEnd (fuel + 1) s = runToEnd fuel u := by
  rw [runToEnd, if_neg (by rw [h]; exact Bool.false_ne_true), hu]

/-- From a terminal state no step leads on. -/
theorem stepsTo_of_terminal {s t : State} {k : Nat} (h : s.status.terminal = true) (hk : stepsTo k s = some t) : t = s := by
  cases k with
  | zero => cases hk; rfl
  | succ k =>
    obtain ⟨u, hu, -⟩ := stepsTo_succ.1 hk
    rw [step_of_terminal h] at hu; cases hu

/-- From a terminal state both sides of O49 say that nothing but that state is reached. -/
theorem runToEnd_eq_some_iff_of_terminal {fuel : Nat} {s t : State} (h : s.status.terminal = true) :
    runToEnd fuel s = some t ↔ ∃ k, k ≤ fuel ∧ stepsTo k s = some t ∧ t.status.terminal = true := by
  rw [runToEnd_of_terminal h]
  constructor
  · rintro ⟨⟩
    exact ⟨0, Nat.zero_le fuel, rfl, h⟩
  · rintro ⟨k, -, hk, -⟩
    rw [stepsTo_of_terminal h hk]

/-- A state reached in no step is terminal only if the run began in one. -/
theorem not_terminal_of_stepsTo_zero {s t : State} (hs : s.status.terminal = false) (h : stepsTo 0 s = some t) :
    t.status.terminal ≠ true := by
  cases h
  rw [hs]
  exact Bool.false_ne_true

/-- Settles O49: by induction on the fuel; a state that is not terminal has one next state. -/
theorem runUnderFuelIsReachingTheEnd : Obligations.RunUnderFuelIsReachingTheEnd := by
  intro fuel s t
  induction fuel generalizing s with
  | zero =>
    cases hs : s.status.terminal with
    | true => exact runToEnd_eq_some_iff_of_terminal hs
    | false =>
      rw [runToEnd_zero hs]
      refine ⟨nofun, fun ⟨k, hk, hst, ht⟩ => ?_⟩
      rw [Nat.le_zero.1 hk] at hst
      exact absurd ht (not_terminal_of_stepsTo_zero hs hst)
  | succ fuel ih =>
    cases hs : s.status.terminal with
    | true => exact runToEnd_eq_some_iff_of_terminal hs
    | false =>
      obtain ⟨u, hu⟩ := step_isNext hs
      rw [runToEnd_succ hs hu, ih]
      constructor
      · rintro ⟨k, hk, hst, ht⟩
        exact ⟨k + 1, Nat.succ_le_succ hk, stepsTo_succ.2 ⟨u, hu, hst⟩, ht⟩
      · rintro ⟨_ | k, hk, hst, ht⟩
        · exact absurd ht (not_terminal_of_stepsTo_zero hs hst)
        · obtain ⟨u', hu', hst'⟩ := stepsTo_succ.1 hst
          obtain rfl := Host.Outcome.next.inj (hu.symm.trans hu')
          exact ⟨k, Nat.le_of_succ_le_succ hk, hst', ht⟩

/-- The self-jump of R111 empties the latch and changes nothing else. -/
theorem step_of_selfJump {s : State} {c : Int} (hrun : s.status = .running) (hc : c ≠ 0)
    (h : s.mem.holdsInstr s.pc (.jumpIfTrue ⟨c, .immediate⟩ ⟨(s.pc : Int), .immediate⟩)) :
    step s = .next { s with latch := none } := by
  rw [step_of_fetch_eq_ok hrun (fetch_of_holdsInstr h)]
  exact congrArg _ (orRaise_jump_taken (c := c) (x := (s.pc : Int)) rfl ((isNonzero_iff c).2 hc) rfl
    (Int.natCast_nonneg s.pc))

/-- Settles O48: by induction on the fuel, the state after the jump being one of the same form. -/
theorem jumpToItselfNeverEnds : Obligations.JumpToItselfNeverEnds := by
  intro fuel
  induction fuel with
  | zero => exact fun s c hrun _ _ => runToEnd_zero (by rw [hrun]; rfl)
  | succ fuel ih =>
    intro s c hrun h hc
    rw [runToEnd_succ (by rw [hrun]; rfl) (step_of_selfJump hrun hc h)]
    exact ih { s with latch := none } c hrun h hc

/-! ## New invocations -/

/-- The image of a canonical memory's contents is that memory. -/
theorem Memory.ofImage_contents {m : Memory} (h : m.wf = true) : Memory.ofImage m.contents = m := by
  have hsize : (Memory.ofImage m.contents).size = m.size := by simp [Memory.contents]
  refine Memory.ext_of_peek (Memory.wf_ofImage _) h hsize fun a ha => ?_
  rw [Memory.ofImage_size] at ha
  rw [Memory.peek_ofImage _ a ha]
  simp [Memory.contents]

/-- Settles O54: in place, the memory is the image of its contents (`Memory.ofImage_contents`). -/
theorem reinvocationIsANewReset : Obligations.ReinvocationIsANewReset := by
  refine fun s image => ⟨rfl, fun hwf => ?_, step_of_terminal⟩
  rw [resetWith, Memory.ofImage_contents hwf]; rfl

end Sys2Proof.Machine
end

section
/-! PROOF. The pipeline block: stages in sequence, and the search (45_pipeline.md R212 to R217). -/

namespace Sys2Proof.Machine

section
variable {fuel : Nat} {cfg : Config} {program : List Int}

/-! ## Stages in sequence -/

/-- After phases that score, the later stages run on that score. -/
theorem runOrdering_append_of_score {phases : List Nat} {s : Int} (later : List Nat)
    (h : runOrdering fuel cfg program phases = .score s) :
    runOrdering fuel cfg program (phases ++ later) = runStages fuel cfg program phases.length s later := by
  unfold runOrdering at h ⊢
  rw [runStages_append, h, Nat.zero_add]

/-- A failed stage ends the ordering. -/
theorem runOrdering_append_of_failed {phases : List Nat} {i : Nat} {k : ErrorKind} (later : List Nat)
    (h : runOrdering fuel cfg program phases = .failed i k) :
    runOrdering fuel cfg program (phases ++ later) = .failed i k := by
  unfold runOrdering at h ⊢
  rw [runStages_append, h]

/-- A stage whose run has not ended leaves the ordering not ended. -/
theorem runOrdering_append_of_notEnded {phases : List Nat} {i : Nat} (later : List Nat)
    (h : runOrdering fuel cfg program phases = .notEnded i) :
    runOrdering fuel cfg program (phases ++ later) = .notEnded i := by
  unfold runOrdering at h ⊢
  rw [runStages_append, h]

/-! ## One stage -/

/-- An ended run has a result (R109). -/
theorem Status.result_ne_none {st : Status} (h : st.terminal = true) : st.result ≠ none := by
  cases st with
  | running => cases h
  | awaitInput d => cases h
  | halted r => exact nofun
  | faulted r => exact nofun

/-- A run on a Collecting output ends in a terminal state with a Collecting output: no step detaches the channel. -/
theorem execute_collecting {image values : List Int} {input : InputChannel} {t : State}
    (h : execute fuel cfg image input (.collecting values) = some t) :
    (∃ values', t.output = .collecting values') ∧ t.status.result ≠ none := by
  obtain ⟨k, -, hk, ht⟩ := (runUnderFuelIsReachingTheEnd fuel _ t).1 h
  obtain ⟨added, hout, -⟩ :=
    collectedOutputIsNeverObserved k (resetWith cfg image input (.collecting values)) t values values hk
  exact ⟨⟨_, hout⟩, Status.result_ne_none ht⟩

/-- A stage whose run has ended has the outcome of the state it ended in. -/
theorem runStage_of_execute {phase : Nat} {s : Int} {t : State}
    (h : execute fuel cfg program (.scripted [(phase : Int), s]) (.collecting []) = some t) :
    runStage fuel cfg program phase s = stageOutcome t := by
  rw [runStage, h]

/-- An `Ok` run outputs the last value it collected (R213). -/
theorem stageOutcome_of_last {t : State} {earlier : List Int} {v : Int} (hr : t.status.result = some (.ok ()))
    (hout : t.output = .collecting (earlier ++ [v])) : stageOutcome t = .output v := by
  simp only [stageOutcome, hr, hout, OutputChannel.collected, List.getLast?_concat]

/-- An `Ok` run that collected nothing fails with `NoOutput` (R214, D20). -/
theorem stageOutcome_of_empty {t : State} (hr : t.status.result = some (.ok ())) (hout : t.output = .collecting []) :
    stageOutcome t = .failed .noOutput := by
  simp only [stageOutcome, hr, hout, OutputChannel.collected, List.getLast?_nil]

/-- A run that ends in an error fails the stage with its kind (R215). -/
theorem stageOutcome_of_error {t : State} {k : ErrorKind} (hr : t.status.result = some (.error k)) :
    stageOutcome t = .failed k := by
  simp only [stageOutcome, hr]

end

/-- Settles O58: the ordering by the lemmas on appended phases, the stage by those on its outcome. -/
theorem stagesRunInSequence : Obligations.StagesRunInSequence := by
  intro fuel cfg program phases phase later
  refine ⟨rfl, fun s h => ?_, fun i k h => runOrdering_append_of_failed later h,
    fun i h => runOrdering_append_of_notEnded later h, fun s => ⟨rfl, fun h => by rw [runStage, h], fun t h => ?_⟩⟩
  · rw [runOrdering_append_of_score [phase] h, runStages]
    cases runStage fuel cfg program phase s <;> rfl
  · rw [runStage_of_execute h]
    obtain ⟨hcollecting, hresult⟩ := execute_collecting h
    exact ⟨fun earlier v hr hout => stageOutcome_of_last hr hout, fun hr hout => stageOutcome_of_empty hr hout,
      fun k hr => stageOutcome_of_error hr, hcollecting, hresult⟩

/-! ## The search -/

/-- The orderings that have a score are those that end with one. -/
theorem OrderingOutcome.score?_eq_some {o : OrderingOutcome} {s : Int} : o.score? = some s ↔ o = .score s := by
  cases o <;> simp [OrderingOutcome.score?]

/-- The orderings that hang are those that have not ended. -/
theorem OrderingOutcome.hangs_eq_true {o : OrderingOutcome} : o.hangs = true ↔ ∃ i, o = .notEnded i := by
  cases o <;> simp [OrderingOutcome.hangs]

/-- The scores among the outcomes. -/
theorem mem_scores {outcomes : List OrderingOutcome} {s : Int} :
    s ∈ outcomes.filterMap OrderingOutcome.score? ↔ .score s ∈ outcomes := by
  simp only [List.mem_filterMap, OrderingOutcome.score?_eq_some, exists_eq_right]

/-- The maximum does not depend on the order of the scores. -/
theorem maxScore_perm {l l' : List Int} (h : l.Perm l') : maxScore l = maxScore l' := by
  ext m
  simp only [maxScore_eq_some, h.mem_iff]

/-- The result of the search does not depend on the order of the outcomes (D22). -/
theorem searchResult_perm {l l' : List OrderingOutcome} (h : l.Perm l') : searchResult l = searchResult l' := by
  rw [searchResult, searchResult, h.any_eq, maxScore_perm (h.filterMap _)]

/-- The search gives `m` exactly when no ordering hangs, one scores `m`, and none scores more. -/
theorem searchResult_eq_best {outcomes : List OrderingOutcome} {m : Int} : searchResult outcomes = .best m ↔
    (∀ o ∈ outcomes, ∀ i, o ≠ .notEnded i) ∧ .score m ∈ outcomes ∧ ∀ s, .score s ∈ outcomes → s ≤ m := by
  have hhang : outcomes.any OrderingOutcome.hangs = true ↔ ∃ o ∈ outcomes, ∃ i, o = .notEnded i := by
    simp only [List.any_eq_true, OrderingOutcome.hangs_eq_true]
  have hmax := maxScore_eq_some (l := outcomes.filterMap OrderingOutcome.score?) (m := m)
  simp only [mem_scores] at hmax
  unfold searchResult
  split
  next h =>
    obtain ⟨o, ho, i, hi⟩ := hhang.1 h
    exact ⟨nofun, fun ⟨hends, _⟩ => absurd hi (hends o ho i)⟩
  next h =>
    have hends : ∀ o ∈ outcomes, ∀ i, o ≠ .notEnded i := fun o ho i hi => h (hhang.2 ⟨o, ho, i, hi⟩)
    rw [and_iff_right hends, ← hmax]
    cases maxScore (outcomes.filterMap OrderingOutcome.score?) <;> simp

/-- Settles O59: by `searchResult_perm` for the listing and `searchResult_eq_best` for the maximum. -/
theorem searchGivesTheMaximum : Obligations.SearchGivesTheMaximum := by
  intro fuel cfg program n listed m hn hperm
  have hsearch : search fuel cfg program n = searchResult ((orderings n).map (runOrdering fuel cfg program)) :=
    if_neg (Nat.ne_of_gt hn)
  rw [hsearch]
  refine ⟨(searchResult_perm (hperm.map _)).symm, ?_⟩
  simp only [searchResult_eq_best, List.mem_map, forall_exists_index, and_imp, forall_apply_eq_imp_iff₂]
  refine and_congr_right fun _ => and_congr_right fun _ => ?_
  exact ⟨fun h phases hp s hs => h s phases hp hs, fun h s phases hp hs => h phases hp s hs⟩

end Sys2Proof.Machine
end
